-- ==== Sys2Proof/Word.lean ====
section
/-! DEFINITION. The byte and the word of the engine (spec/00_scope.md R8, R9) and its fixed sizes (R6). -/

namespace Sys2Proof

/-- A byte: an 8-bit unsigned value (R9). -/
abbrev Byte := BitVec 8

/-- A word: a 32-bit unsigned value; its additions wrap mod 2^32 (R8). -/
abbrev Word := BitVec 32

/-- `BLOCK_BYTES` of R6. -/
abbrev blockBytes : Nat := 64

/-- `LEN_FIELD_BYTES` of R6. -/
abbrev lenFieldBytes : Nat := 8

/-- `FEED_MAX_BYTES` of R6. -/
abbrev feedMaxBytes : Nat := 3

end Sys2Proof
end

