-- ==== Sys2Proof/Config.lean ====
section
/-! DEFINITION. The values the spec leaves open (spec/93_implementation_defined.md U4, U8, U9, U10): constants with
no body, so that no proof can see what they are. Each is drawn at a counter of State, the same for every instance
(log 20). `ENGINE_BASE` (U14) is an argument of the functions of Machine/Platform.lean, and `LATENCY` (U13) is not
modelled. -/

namespace Sys2Proof

/-- `H` after the reset or the BOUNDS fault of epoch `n` (R33, R240: any value). -/
opaque Config.unspecifiedH (n : Nat) : Vector Word 5

/-- `CNT` after the reset or the BOUNDS fault of epoch `n` (R33, R240: any value). -/
opaque Config.unspecifiedCnt (n : Nat) : Vector Word 2

/-- `Buf` after the reset or the BOUNDS fault of epoch `n` (R33, R240: any value). -/
opaque Config.unspecifiedBuf (n : Nat) : Vector Byte 64

/-- `FILL` after the BOUNDS fault of epoch `n` (R240: any value). -/
opaque Config.unspecifiedFill (n : Nat) : Fin 64

/-- `D` after the reset or the BOUNDS fault of epoch `n` (R33, R240: any value). -/
opaque Config.unspecifiedD (n : Nat) : Vector Byte 20

/-- What `DIGESTk` reads as while PHASE is not FINALIZED: one draw for each epoch and `k` (R30, R54). -/
opaque Config.digestDraw (n : Nat) (k : Fin 5) : Word

/-- What the `n`-th read of offset 0x1C returns: each read is a draw of its own (R54). -/
opaque Config.reservedDraw (n : Nat) : Word

end Sys2Proof
end

