-- ==== Sys2Proof/Syntax.lean ====
section
/-! DEFINITION. The commands (one constructor per row of spec/opcode_table.json), the fields of a command word
(spec/30_encoding.md R71), the headings of illegal words (R78) and the lines of assembler source (R79, R80). -/

namespace Sys2Proof

/-- `ALG`: which compressor a message runs (spec/10_state.md R22). -/
inductive Alg where
  | md4
  | sha0
  deriving DecidableEq, Repr

/-- A command: one constructor per row of spec/opcode_table.json; FEED has one row per `N` (R74). -/
inductive Instr where
  /-- NOP (R73, R143). -/
  | nop
  /-- INIT with the algorithm select (R75, R144). -/
  | init (a : Alg)
  /-- FEED, N = 0 (R74, R145). -/
  | feed0
  /-- FEED, N = 1 (R74, R145). -/
  | feed1 (b0 : Byte)
  /-- FEED, N = 2 (R74, R145). -/
  | feed2 (b0 b1 : Byte)
  /-- FEED, N = 3 (R74, R145). -/
  | feed3 (b0 b1 b2 : Byte)
  /-- FINAL (R76, R149). -/
  | final
  deriving DecidableEq, Repr

/-- The fields of the single command format (R71). -/
structure CmdFields where
  /-- `OP`, bits [31:28]. -/
  op : BitVec 4
  /-- Reserved, bits [27:26]. -/
  rsv : BitVec 2
  /-- `N`, bits [25:24]. -/
  n : BitVec 2
  /-- `B2`, bits [23:16]. -/
  b2 : Byte
  /-- `B1`, bits [15:8]. -/
  b1 : Byte
  /-- `B0`, bits [7:0]; its bit 0 is `ALG` in INIT. -/
  b0 : Byte
  deriving DecidableEq, Repr

/-- Why a word is illegal: the headings of R78. -/
inductive IllegalWord where
  /-- `OP` from 4 to 15. -/
  | reservedOpcode
  /-- `OP = 0` with any of bits [27:0] set. -/
  | nopBits
  /-- `OP = 1` with any of bits [27:1] set. -/
  | initBits
  /-- `OP = 2` with bits [27:26] not 0. -/
  | feedReservedBits
  /-- `OP = 2` with a non-zero data lane at index `N` or above. -/
  | feedUnusedLane
  /-- `OP = 3` with any of bits [27:0] set. -/
  | finalBits
  deriving DecidableEq, Repr

/-- One line of assembler source, its byte operands still the numbers that were written (R79, R80). -/
inductive SourceLine where
  | nop
  | init (a : Alg)
  | feed (bs : List Nat)
  | final
  /-- The pseudo-instruction FEEDS. -/
  | feeds (s : List Nat)
  /-- The pseudo-instruction HASH. -/
  | hash (a : Alg) (s : List Nat)
  deriving DecidableEq, Repr

end Sys2Proof
end

