-- ==== Sys2Proof/WellFormed.lean ====
section
/-! DEFINITION. Well-formedness of what can be written wrongly: the fields of a command word
(spec/30_encoding.md R71, R74 to R76) and a line of assembler source (R79). A term of `Instr` needs no check: each
operand's type holds exactly the values its field admits (R72). -/

namespace Sys2Proof

/-- FEED's data lanes at index `N` or above are 0 (R74). -/
def CmdFields.unusedLanesZero (f : CmdFields) : Bool :=
  (decide (0 < f.n.toNat) || f.b0 == 0) && (decide (1 < f.n.toNat) || f.b1 == 0) &&
    (decide (2 < f.n.toNat) || f.b2 == 0)

/-- The fields that must be 0 for each opcode are 0, and the opcode is not reserved (R71, R73 to R76). -/
def CmdFields.wellFormed (f : CmdFields) : Bool :=
  f.rsv == 0 &&
  match f.op.toNat with
  | 0 => f.n == 0 && f.b2 == 0 && f.b1 == 0 && f.b0 == 0
  | 1 => f.n == 0 && f.b2 == 0 && f.b1 == 0 && (f.b0 == 0 || f.b0 == 1)
  | 2 => f.unusedLanesZero
  | 3 => f.n == 0 && f.b2 == 0 && f.b1 == 0 && f.b0 == 0
  | _ => false

/-- A byte operand is a number from 0 to 255 (R79). -/
def byteOperandOk (b : Nat) : Bool := decide (b < 256)

/-- A source line's byte operands are bytes, and a FEED has at most `FEED_MAX_BYTES` of them (R79, R80). -/
def SourceLine.wellFormed : SourceLine → Bool
  | .nop => true
  | .init _ => true
  | .feed bs => decide (bs.length ≤ feedMaxBytes) && bs.all byteOperandOk
  | .final => true
  | .feeds s => s.all byteOperandOk
  | .hash _ s => s.all byteOperandOk

end Sys2Proof
end

