-- ==== Sys2Proof/Decode.lean ====
section
/-! DEFINITION. Decode of a command word, total on every 32-bit word and rejecting by name (spec/30_encoding.md R77,
R78), the encoder (R73 to R76, R79), and the rows of spec/opcode_table.json as data. -/

namespace Sys2Proof

/-- `ALG = cmd[0]` (R72): 0 selects MD4, 1 selects SHA-0. -/
def Alg.ofBit : Bool → Alg
  | false => .md4
  | true => .sha0

/-- The encoding of `ALG` (R22). -/
def Alg.toBit : Alg → BitVec 1
  | .md4 => 0
  | .sha0 => 1

/-- `OP = cmd[31:28]` (R70). -/
def opField (w : Word) : BitVec 4 := w.extractLsb' 28 4

/-- `N = cmd[25:24]` (R72). -/
def nField (w : Word) : BitVec 2 := w.extractLsb' 24 2

/-- Byte lane `k` of a command word: bits [8k+7:8k] (R58, R72). -/
def lane (w : Word) (k : Nat) : Byte := w.extractLsb' (8 * k) 8

/-- The fields of a command word (R71). -/
def fieldsOf (w : Word) : CmdFields :=
  { op := opField w, rsv := w.extractLsb' 26 2, n := nField w, b2 := lane w 2, b1 := lane w 1, b0 := lane w 0 }

/-- The FEED form that `N` selects, with the lanes it absorbs (R72, R74). -/
def feedForm (w : Word) : Instr :=
  match (nField w).toNat with
  | 0 => .feed0
  | 1 => .feed1 (lane w 0)
  | 2 => .feed2 (lane w 0) (lane w 1)
  | _ => .feed3 (lane w 0) (lane w 1) (lane w 2)

/-- Which heading of R78 an illegal word falls under. -/
def illegalReason (w : Word) : IllegalWord :=
  match (opField w).toNat with
  | 0 => .nopBits
  | 1 => .initBits
  | 2 => if w.extractLsb' 26 2 = 0 then .feedUnusedLane else .feedReservedBits
  | 3 => .finalBits
  | _ => .reservedOpcode

/-- `Decode` of R77, in its order of tests; `Illegal` carries the heading of R78. -/
def decode (w : Word) : Except IllegalWord Instr :=
  if w = 0x00000000#32 then .ok .nop
  else if w.extractLsb' 1 31 = 0x08000000#31 then .ok (.init (Alg.ofBit (w.getLsbD 0)))
  else if w.extractLsb' 26 6 = 0b001000#6 then
    if w.extractLsb' 0 24 >>> (8 * (nField w).toNat) = 0#24 then .ok (feedForm w)
    else .error (illegalReason w)
  else if w = 0x30000000#32 then .ok .final
  else .error (illegalReason w)

/-- A byte placed in lane `k` of a word (R58, R72). -/
def inLane (b : Byte) (k : Nat) : Word := b.setWidth 32 <<< (8 * k)

/-- The word of a command (R73 to R76, R79). -/
def encode : Instr → Word
  | .nop => 0x00000000#32
  | .init a => 0x10000000#32 ||| a.toBit.setWidth 32
  | .feed0 => 0x20000000#32
  | .feed1 b0 => 0x21000000#32 ||| inLane b0 0
  | .feed2 b0 b1 => 0x22000000#32 ||| inLane b1 1 ||| inLane b0 0
  | .feed3 b0 b1 b2 => 0x23000000#32 ||| inLane b2 2 ||| inLane b1 1 ||| inLane b0 0
  | .final => 0x30000000#32

/-- A row of spec/opcode_table.json. -/
structure OpcodeRow where
  mask : Word
  value : Word
  deriving DecidableEq, Repr

/-- The word belongs to the row. -/
def OpcodeRow.matches (r : OpcodeRow) (w : Word) : Bool := w &&& r.mask == r.value

/-- The row of spec/opcode_table.json that a command's constructor stands for. -/
def opcodeRow : Instr → OpcodeRow
  | .nop => ⟨0xFFFFFFFF, 0x00000000⟩
  | .init _ => ⟨0xFFFFFFFE, 0x10000000⟩
  | .feed0 => ⟨0xFFFFFFFF, 0x20000000⟩
  | .feed1 _ => ⟨0xFFFFFF00, 0x21000000⟩
  | .feed2 _ _ => ⟨0xFFFF0000, 0x22000000⟩
  | .feed3 _ _ _ => ⟨0xFF000000, 0x23000000⟩
  | .final => ⟨0xFFFFFFFF, 0x30000000⟩

/-- spec/opcode_table.json, row by row. -/
def opcodeTable : List OpcodeRow :=
  [⟨0xFFFFFFFF, 0x00000000⟩, ⟨0xFFFFFFFE, 0x10000000⟩, ⟨0xFFFFFFFF, 0x20000000⟩, ⟨0xFFFFFF00, 0x21000000⟩,
    ⟨0xFFFF0000, 0x22000000⟩, ⟨0xFF000000, 0x23000000⟩, ⟨0xFFFFFFFF, 0x30000000⟩]

/-- The command word numbered as the table numbers it: its `nbits` low bits are `w`'s, the rest of the word is 0. -/
def tableWord (nbits w : Nat) : Word := BitVec.ofNat 32 (w % 2 ^ nbits)

/-- The command the decoder reads from a table word, none where it is illegal. -/
def decodeTableWord (nbits w : Nat) : Option Instr :=
  match decode (tableWord nbits w) with
  | .ok i => some i
  | .error _ => none

end Sys2Proof
end

