-- ==== Sys2Proof/Machine/State.lean ====
section
/-! DEFINITION. The state of the engine as plain data (spec/10_state.md), the host's requests, the reasons a step can
stop, and the state after reset. -/

namespace Sys2Proof.Machine

/-- `PHASE` (R21): the state of the finalization state machine. -/
inductive Phase where
  /-- After reset, no INIT since. -/
  | uninit
  /-- INIT done; FEED and FINAL are accepted. -/
  | absorb
  /-- FINAL done; `D` holds the digest. -/
  | finalized
  /-- A fault was raised; sticky until reset. -/
  | faulted
  deriving DecidableEq, Repr

/-- The fault codes the engine can raise (spec/60_exceptions.md R241). Code 0 is `none` in `State.fcode`, and codes 6
to 15, never raised, have no name here. -/
inductive FaultCode where
  /-- Code 1: the CMD word is illegal. -/
  | illegalCmd
  /-- Code 2: FEED or FINAL before the first INIT after reset. -/
  | notInit
  /-- Code 3: FINAL after FINAL with no INIT between. -/
  | doubleFinal
  /-- Code 4: FEED after FINAL with no INIT between. -/
  | feedAfterFinal
  /-- Code 5: a transform of fewer than 64 bytes, or packing a length that is no multiple of 4. -/
  | bounds
  deriving DecidableEq, Repr

/-- A request of the host at the register window (spec/20_memory.md R52 to R55) or its reset input (R270). `offset` is
the byte offset in the 32-byte window and `width` the access's width in bits. The data of a write of a width other than
32 is not represented, since such a write is refused (R53). -/
inductive HostEvent where
  | write (offset : Fin 32) (width : Nat) (data : Word)
  | read (offset : Fin 32) (width : Nat)
  | reset
  deriving DecidableEq, Repr

/-- The engine's architectural state (spec/10_state.md, the table of section 1), and the model's own four last fields. -/
structure State where
  /-- `PHASE` (R21). -/
  phase : Phase
  /-- `ALG` (R22). -/
  alg : Alg
  /-- `H[0..4]`, the chaining value (R23). -/
  h : Vector Word 5
  /-- `CNT[0..1]`, the BitCounter, low word first (R24). -/
  cnt : Vector Word 2
  /-- `Buf[0..63]`, the scratch buffer (R25). -/
  buf : Vector Byte 64
  /-- `FILL`, 0 to 63 (R25). -/
  fill : Fin 64
  /-- `D[0..19]`, the digest output register (R27). -/
  d : Vector Byte 20
  /-- `FCODE` (R28); `none` is the code 0. -/
  fcode : Option FaultCode
  /-- The model's own: the host's requests not yet performed, oldest first (R59, R62; log 1). -/
  port : List HostEvent
  /-- The model's own: the values returned to the host's reads, oldest first (R54; log 8). -/
  replies : List Word
  /-- The model's own: how many commands and resets were performed; the free values are drawn at it (logs 4, 5, 7). -/
  epoch : Nat
  /-- The model's own: how many reads of offset 0x1C were performed, each a draw of its own (R54; log 6). -/
  reservedReads : Nat
  deriving DecidableEq, Repr

/-- Why the machine stops with a fault: never. Every fault of the spec is an architectural state, PHASE = FAULTED, from
which the machine goes on (spec/60_exceptions.md R240, R245), so this type has no constructor. -/
inductive Fault where
  deriving DecidableEq, Repr

/-- Why the machine gives no meaning to a request. -/
inductive Refusal where
  /-- Raised by an arm of `exec` whose instruction has no meaning yet; no arm is left so. Safe. -/
  | notModelled (mnemonic : String)
  /-- Raised by a host access whose width is not 32 bits: "A model refuses such an access" (R53). Safe. -/
  | accessWidth
  /-- Raised by a 32-bit host access at an offset that is not a multiple of 4 (R53). Safe. -/
  | accessAlignment
  deriving DecidableEq, Repr

/-- The machine right after reset (R33). PHASE, ALG, FCODE and FILL are the spec's. `H`, `CNT`, `Buf` and `D` are
"unspecified (any value)" there: zero is a DESIGN CHOICE, unsafe (log 3). The model's own fields are empty (log 12). -/
def State.reset : State :=
  { phase := .uninit
    alg := .md4
    h := Vector.replicate 5 0
    cnt := Vector.replicate 2 0
    buf := Vector.replicate 64 0
    fill := 0
    d := Vector.replicate 20 0
    fcode := none
    port := []
    replies := []
    epoch := 0
    reservedReads := 0 }

end Sys2Proof.Machine
end

