-- ==== Sys2Proof/Machine/Flags.lean ====
section
/-! DEFINITION. The encodings of PHASE and FCODE, and the STATUS register composed of them (spec/10_state.md R21, R28,
R29; spec/60_exceptions.md R241). The engine has no flags and no condition codes (R32): STATUS is all it reports. -/

namespace Sys2Proof.Machine

/-- The value encoding of PHASE (R21). -/
def Phase.toBits : Phase → BitVec 2
  | .uninit => 0
  | .absorb => 1
  | .finalized => 2
  | .faulted => 3

/-- The fault codes (R241). -/
def FaultCode.toBits : FaultCode → BitVec 4
  | .illegalCmd => 1
  | .notInit => 2
  | .doubleFinal => 3
  | .feedAfterFinal => 4
  | .bounds => 5

/-- `FCODE` as STATUS shows it: 0 where there is no fault (R28, R241). -/
def fcodeBits : Option FaultCode → BitVec 4
  | none => 0
  | some c => c.toBits

/-- The STATUS register: PHASE [1:0], ALG [2], FCODE [7:4], FILL [13:8], all else 0 (R29). -/
def statusWord (s : State) : Word :=
  s.phase.toBits.setWidth 32 ||| (s.alg.toBit.setWidth 32 <<< 2) ||| ((fcodeBits s.fcode).setWidth 32 <<< 4) |||
    (BitVec.ofNat 32 s.fill.val <<< 8)

end Sys2Proof.Machine
end

