-- ==== Sys2Proof/Machine/Operands.lean ====
section
/-! DEFINITION. Word arithmetic and byte sequences (spec/00_scope.md R8, R9), and the operand bytes of a command
(spec/30_encoding.md R72, R74). -/

namespace Sys2Proof.Machine

/-- `rotl(x, n)` for `0 < n < 32` (R8). -/
def rotl (x : Word) (n : Nat) : Word := (x <<< n) ||| (x >>> (32 - n))

/-- `zeros(n)`: `n` bytes of 0x00 (R9). -/
def zeros (n : Nat) : List Byte := List.replicate n 0

/-- A byte sequence as a register of `n` bytes, byte 0 first. Its callers give exactly `n` bytes. -/
def byteRegister (n : Nat) (s : List Byte) : Vector Byte n := Vector.ofFn fun i => s.getD i.val 0

/-- The bytes a command absorbs, in lane order B0, B1, B2: the first `N` lanes (R72, R74). -/
def operandBytes : Instr → List Byte
  | .nop => []
  | .init _ => []
  | .feed0 => []
  | .feed1 b0 => [b0]
  | .feed2 b0 b1 => [b0, b1]
  | .feed3 b0 b1 b2 => [b0, b1, b2]
  | .final => []

end Sys2Proof.Machine
end

