-- ==== Sys2Proof/Machine/Ops.lean ====
section
/-! DEFINITION. The shared operations on the state: raising a fault, the reset that alone leaves FAULTED, the gate every
command passes, and emptying the buffer (spec/60_exceptions.md R240 to R245, spec/70_reset_and_hazards.md R270). -/

namespace Sys2Proof.Machine

/-- `raise Fault(code)` (R240): PHASE and FCODE are written and nothing else, but for BOUNDS, after which `H`, `CNT`,
`Buf`, `FILL` and `D` are any value (log 7). -/
def raiseFault (code : FaultCode) (s : State) : State :=
  match code with
  | .illegalCmd | .notInit | .doubleFinal | .feedAfterFinal => { s with phase := .faulted, fcode := some code }
  | .bounds =>
    { s with
      phase := .faulted
      fcode := some code
      h := Config.unspecifiedH s.epoch
      cnt := Config.unspecifiedCnt s.epoch
      buf := Config.unspecifiedBuf s.epoch
      fill := Config.unspecifiedFill s.epoch
      d := Config.unspecifiedD s.epoch }

/-- The reset input (R270, R33): the only way out of FAULTED (R245). `H`, `CNT`, `Buf` and `D` become any value, drawn
at the reset's own epoch (log 4). The host's side of the window, `port` and `replies`, is not the engine's and stays
(log 10). -/
def resetEngine (s : State) : State :=
  { s with
    phase := .uninit
    alg := .md4
    fcode := none
    fill := 0
    h := Config.unspecifiedH (s.epoch + 1)
    cnt := Config.unspecifiedCnt (s.epoch + 1)
    buf := Config.unspecifiedBuf (s.epoch + 1)
    d := Config.unspecifiedD (s.epoch + 1)
    epoch := s.epoch + 1 }

/-- `for i in [0, 64): Buf[i] <- 0; FILL <- 0` (R144, R146, R149). -/
def clearBuffer (s : State) : State := { s with buf := Vector.replicate 64 0, fill := 0 }

/-- One command, whole or not at all (R55, R140): in FAULTED it has no effect (R141), and a check that raises a fault
makes the fault the command's one effect (R240). -/
def runCommand (body : State → Except FaultCode State) (s : State) : Host.Outcome State Fault Refusal :=
  if s.phase = .faulted then .next s
  else
    match body s with
    | .ok t => .next t
    | .error code => .next (raiseFault code s)

end Sys2Proof.Machine
end

