-- ==== Sys2Proof/Machine/BitCounter.lean ====
section
/-! DEFINITION. The BitCounter unit (spec/40_bitcounter.md). -/

namespace Sys2Proof.Machine

/-- The counter's value, `CNT[0] + 2^32 * CNT[1]` (R24). -/
def counterValue (cnt : Vector Word 2) : Nat := cnt[0].toNat + 2 ^ 32 * cnt[1].toNat

/-- `CounterAdd(n)` (R101): the sum of the low word is computed without wrap, and its carry goes to the high word. -/
def counterAdd (n : Word) (cnt : Vector Word 2) : Vector Word 2 :=
  let sum := cnt[0].toNat + n.toNat
  #v[BitVec.ofNat 32 sum, BitVec.ofNat 32 (cnt[1].toNat + (sum >>> 32))]

/-- `CounterClear()` (R102). -/
def counterClear : Vector Word 2 := #v[0, 0]

/-- `CounterToBytes()` (R103): 8 bytes, the least significant first. -/
def counterToBytes (cnt : Vector Word 2) : List Byte :=
  [(cnt[0] >>> 0).setWidth 8, (cnt[0] >>> 8).setWidth 8, (cnt[0] >>> 16).setWidth 8, (cnt[0] >>> 24).setWidth 8,
    (cnt[1] >>> 0).setWidth 8, (cnt[1] >>> 8).setWidth 8, (cnt[1] >>> 16).setWidth 8, (cnt[1] >>> 24).setWidth 8]

end Sys2Proof.Machine
end

