-- ==== Sys2Proof/Machine/WordPacking.lean ====
section
/-! DEFINITION. The WordPacking unit (spec/41_wordpacking.md). -/

namespace Sys2Proof.Machine

/-- The order `o` of R120. -/
inductive ByteOrder where
  | le
  | be
  deriving DecidableEq, Repr

/-- One word of four bytes in stream order (R121, R122). -/
def packWord : ByteOrder → Byte → Byte → Byte → Byte → Word
  | .le, s0, s1, s2, s3 =>
    s0.setWidth 32 ||| (s1.setWidth 32 <<< 8) ||| (s2.setWidth 32 <<< 16) ||| (s3.setWidth 32 <<< 24)
  | .be, s0, s1, s2, s3 =>
    (s0.setWidth 32 <<< 24) ||| (s1.setWidth 32 <<< 16) ||| (s2.setWidth 32 <<< 8) ||| s3.setWidth 32

/-- The words of the whole groups of four bytes (R121, R122). -/
def packGroups (o : ByteOrder) : List Byte → List Word
  | s0 :: s1 :: s2 :: s3 :: rest => packWord o s0 s1 s2 s3 :: packGroups o rest
  | _ => []

/-- `BytesToWords(s, o)` (R121, R122); a length that is not a multiple of 4 raises BOUNDS (R124). -/
def bytesToWords (s : List Byte) (o : ByteOrder) : Except FaultCode (List Word) :=
  if s.length % 4 = 0 then .ok (packGroups o s) else .error .bounds

/-- The four bytes of a word in stream order (R123). -/
def unpackWord : ByteOrder → Word → List Byte
  | .le, w => [w.setWidth 8, (w >>> 8).setWidth 8, (w >>> 16).setWidth 8, (w >>> 24).setWidth 8]
  | .be, w => [(w >>> 24).setWidth 8, (w >>> 16).setWidth 8, (w >>> 8).setWidth 8, w.setWidth 8]

/-- `WordsToBytes(ws, o)` (R123). -/
def wordsToBytes (ws : List Word) (o : ByteOrder) : List Byte := ws.flatMap (unpackWord o)

end Sys2Proof.Machine
end

