-- ==== Sys2Proof/Machine/Md4.lean ====
section
/-! DEFINITION. The MD4 compressor, its length field and its digest (spec/43_md4.md). -/

namespace Sys2Proof.Machine

/-- `MD4_IV` (R180); INIT writes 0 to `H[4]` (R144). -/
def md4Iv : Vector Word 4 := #v[0x67452301, 0xefcdab89, 0x98badcfe, 0x10325476]

/-- The three rounds (R187). -/
inductive Md4Round where
  | r1
  | r2
  | r3
  deriving DecidableEq, Repr

/-- `MD4_F`: bitwise select (R182). -/
def md4F (x y z : Word) : Word := (x &&& y) ||| (~~~x &&& z)

/-- `MD4_G`: bitwise majority (R182). -/
def md4G (x y z : Word) : Word := (x &&& y) ||| (x &&& z) ||| (y &&& z)

/-- `MD4_H`: bitwise parity (R182). -/
def md4H (x y z : Word) : Word := x ^^^ y ^^^ z

/-- `FN_r` (R186). -/
def md4Fn : Md4Round → Word → Word → Word → Word
  | .r1 => md4F
  | .r2 => md4G
  | .r3 => md4H

/-- `K_r` (R183). -/
def md4K : Md4Round → Word
  | .r1 => 0x00000000
  | .r2 => 0x5a827999
  | .r3 => 0x6ed9eba1

/-- `ORD_r` (R184). -/
def md4Ord : Md4Round → List Nat
  | .r1 => [0, 1, 2, 3, 4, 5, 6, 7, 8, 9, 10, 11, 12, 13, 14, 15]
  | .r2 => [0, 4, 8, 12, 1, 5, 9, 13, 2, 6, 10, 14, 3, 7, 11, 15]
  | .r3 => [0, 8, 4, 12, 2, 10, 6, 14, 1, 9, 5, 13, 3, 11, 7, 15]

/-- `SH_r` (R185). -/
def md4Sh : Md4Round → List Nat
  | .r1 => [3, 7, 11, 19]
  | .r2 => [3, 5, 9, 13]
  | .r3 => [3, 9, 11, 15]

/-- The target lane of step `j`: `(4 - (j mod 4)) mod 4` (R186). -/
def md4Target (j : Nat) : Fin 4 := Fin.ofNat 4 (4 - j % 4)

/-- Step `j` of round `r` on the lanes `v` with the message words `x` (R186). The sum of two lane numbers is mod 4. -/
def md4Step (x : List Word) (r : Md4Round) (v : Vector Word 4) (j : Nat) : Vector Word 4 :=
  let tg := md4Target j
  let sum := v[tg] + md4Fn r v[tg + 1] v[tg + 2] v[tg + 3] + x.getD ((md4Ord r).getD j 0) 0 + md4K r
  v.set tg (rotl sum ((md4Sh r).getD (j % 4) 0))

/-- The 16 steps of a round, in order (R187). -/
def md4RoundSteps (x : List Word) (v : Vector Word 4) (r : Md4Round) : Vector Word 4 :=
  (List.range 16).foldl (md4Step x r) v

/-- `MD4Compress(Hin, block)` (R187), with the feed-forward of R188. -/
def md4Compress (hin : Vector Word 4) (block : List Byte) : Except FaultCode (Vector Word 4) := do
  let x ← bytesToWords block .le
  let v := [Md4Round.r1, .r2, .r3].foldl (md4RoundSteps x) hin
  .ok #v[hin[0] + v[0], hin[1] + v[1], hin[2] + v[2], hin[3] + v[3]]

/-- `MD4LenField(C) = C` (R189). -/
def md4LenField (c : List Byte) : List Byte := c

/-- `MD4DigestBytes(H[0..3])` (R190). -/
def md4DigestBytes (h : Vector Word 5) : List Byte := wordsToBytes [h[0], h[1], h[2], h[3]] .le

end Sys2Proof.Machine
end

