-- ==== Sys2Proof/Machine/Sha0.lean ====
section
/-! DEFINITION. The SHA-0 compressor, its length field and its digest (spec/44_sha0.md). -/

namespace Sys2Proof.Machine

/-- `SHA0_IV` (R210). -/
def sha0Iv : Vector Word 5 := #v[0x67452301, 0xefcdab89, 0x98badcfe, 0x10325476, 0xc3d2e1f0]

/-- `n` more words of the schedule, without rotation: each is `W[i-3] ^ W[i-8] ^ W[i-14] ^ W[i-16]`, where `i` is how
many words there are (R212). -/
def sha0Extend : Nat → List Word → List Word
  | 0, w => w
  | n + 1, w =>
    let i := w.length
    sha0Extend n (w ++ [w.getD (i - 3) 0 ^^^ w.getD (i - 8) 0 ^^^ w.getD (i - 14) 0 ^^^ w.getD (i - 16) 0])

/-- `F_q(b, c, d)` at step `i` of round `q = i / 20 + 1` (R213). -/
def sha0F (i : Nat) (b c d : Word) : Word :=
  match i / 20 with
  | 0 => (b &&& c) ^^^ (~~~b &&& d)
  | 1 => b ^^^ c ^^^ d
  | 2 => (b &&& c) ^^^ (b &&& d) ^^^ (c &&& d)
  | _ => b ^^^ c ^^^ d

/-- `K_q` at step `i` of round `q = i / 20 + 1` (R213). -/
def sha0K (i : Nat) : Word :=
  match i / 20 with
  | 0 => 0x5a827999
  | 1 => 0x6ed9eba1
  | 2 => 0x8f1bbcdc
  | _ => 0xca62c1d6

/-- Step `i` on the lanes `(a, b, c, d, e)`, one simultaneous assignment (R214). -/
def sha0Step (w : List Word) (v : Vector Word 5) (i : Nat) : Vector Word 5 :=
  let t := v[4] + w.getD i 0 + sha0K i + sha0F i v[1] v[2] v[3] + rotl v[0] 5
  #v[t, v[0], rotl v[1] 30, v[2], v[3]]

/-- `SHA0Compress(Hin, block)` (R215). -/
def sha0Compress (hin : Vector Word 5) (block : List Byte) : Except FaultCode (Vector Word 5) := do
  let w16 ← bytesToWords block .be
  let v := (List.range 80).foldl (sha0Step (sha0Extend 64 w16)) hin
  .ok #v[hin[0] + v[0], hin[1] + v[1], hin[2] + v[2], hin[3] + v[3], hin[4] + v[4]]

/-- `SHA0LenField(C) = reverse(C)` (R216). -/
def sha0LenField (c : List Byte) : List Byte := c.reverse

/-- `SHA0DigestBytes(H[0..4])` (R217). -/
def sha0DigestBytes (h : Vector Word 5) : List Byte := wordsToBytes h.toList .be

end Sys2Proof.Machine
end

