-- ==== Sys2Proof/Machine/Streaming.lean ====
section
/-! DEFINITION. The streaming hasher: the procedures the commands share and the meaning of each command
(spec/42_streaming.md). A procedure that can raise a fault answers the state it leaves or the fault's code. -/

namespace Sys2Proof.Machine

/-- The new chaining value of the compressor `a` on one block (R147); fewer or more than 64 bytes raise BOUNDS (R148).
MD4 leaves `H[4]` as it is. -/
def compressChain (a : Alg) (h : Vector Word 5) (block : List Byte) : Except FaultCode (Vector Word 5) :=
  if block.length = blockBytes then
    match a with
    | .md4 => do
      let o ← md4Compress #v[h[0], h[1], h[2], h[3]] block
      .ok #v[o[0], o[1], o[2], o[3], h[4]]
    | .sha0 => sha0Compress h block
  else .error .bounds

/-- `Compress(block)` (R147): only `H` changes. -/
def compress (block : List Byte) (s : State) : Except FaultCode State := do
  let h ← compressChain s.alg s.h block
  .ok { s with h := h }

/-- `AbsorbByte(b)` (R146). -/
def absorbByte (b : Byte) (s : State) : Except FaultCode State :=
  let s1 := { s with buf := s.buf.set s.fill b }
  if f : s.fill.val + 1 < 64 then .ok { s1 with fill := ⟨s.fill.val + 1, f⟩ }
  else do
    let s2 ← compress s1.buf.toList s1
    .ok (clearBuffer { s2 with cnt := counterAdd 512 s2.cnt })

/-- `AbsorbByte` of each byte, in order (R145). -/
def absorbBytes : List Byte → State → Except FaultCode State
  | [], s => .ok s
  | b :: bs, s => (absorbByte b s).bind (absorbBytes bs)

/-- `Pad(t, L)` (R150), with the double-block condition `t >= 56` (R151). -/
def pad (t : Nat) (l : List Byte) (s : State) : Except FaultCode State :=
  let p := s.buf.toList.take t ++ [0x80] ++ zeros (63 - t)
  if 56 ≤ t then do
    let s1 ← compress p s
    compress (zeros 56 ++ l) s1
  else compress (p.take 56 ++ l) s

/-- The 8-byte length field of the algorithm, from the counter's bytes (R149, R189, R216). -/
def lenField : Alg → List Byte → List Byte
  | .md4 => md4LenField
  | .sha0 => sha0LenField

/-- The 20 bytes FINAL writes to `D` (R27, R149): MD4's 16 digest bytes and four zeros, or SHA-0's 20. -/
def digestBytes : Alg → Vector Word 5 → List Byte
  | .md4, h => md4DigestBytes h ++ zeros 4
  | .sha0, h => sha0DigestBytes h

/-- The chaining value INIT writes (R144). -/
def initialChain : Alg → Vector Word 5
  | .md4 => #v[md4Iv[0], md4Iv[1], md4Iv[2], md4Iv[3], 0]
  | .sha0 => sha0Iv

/-- `DoNop()` (R143). -/
def doNop (s : State) : Except FaultCode State := .ok s

/-- `DoInit(a)` (R144). -/
def doInit (a : Alg) (s : State) : Except FaultCode State :=
  .ok (clearBuffer { s with alg := a, h := initialChain a, cnt := counterClear, phase := .absorb })

/-- `DoFeed(bs)` (R145); in FAULTED the gate of `runCommand` lets no command come here. -/
def doFeed (bs : List Byte) (s : State) : Except FaultCode State :=
  match s.phase with
  | .uninit => .error .notInit
  | .finalized => .error .feedAfterFinal
  | .absorb | .faulted => absorbBytes bs s

/-- The part of `DoFinal()` after its checks (R149). -/
def finalize (s : State) : Except FaultCode State := do
  let t := s.fill.val
  let s1 := { s with cnt := counterAdd (BitVec.ofNat 32 (8 * t)) s.cnt }
  let s2 ← pad t (lenField s1.alg (counterToBytes s1.cnt)) s1
  .ok (clearBuffer
    { s2 with d := byteRegister 20 (digestBytes s2.alg s2.h), cnt := counterClear, phase := .finalized })

/-- `DoFinal()` (R149); in FAULTED the gate of `runCommand` lets no command come here. -/
def doFinal (s : State) : Except FaultCode State :=
  match s.phase with
  | .uninit => .error .notInit
  | .finalized => .error .doubleFinal
  | .absorb | .faulted => finalize s

/-- NOP (R143). -/
def execNop (s : State) : Host.Outcome State Fault Refusal := runCommand doNop s

/-- INIT (R144). -/
def execInit (a : Alg) (s : State) : Host.Outcome State Fault Refusal := runCommand (doInit a) s

/-- FEED, N = 0 (R74, R145). -/
def execFeed0 (s : State) : Host.Outcome State Fault Refusal := runCommand (doFeed (operandBytes .feed0)) s

/-- FEED, N = 1 (R74, R145). -/
def execFeed1 (b0 : Byte) (s : State) : Host.Outcome State Fault Refusal :=
  runCommand (doFeed (operandBytes (.feed1 b0))) s

/-- FEED, N = 2 (R74, R145). -/
def execFeed2 (b0 b1 : Byte) (s : State) : Host.Outcome State Fault Refusal :=
  runCommand (doFeed (operandBytes (.feed2 b0 b1))) s

/-- FEED, N = 3 (R74, R145). -/
def execFeed3 (b0 b1 b2 : Byte) (s : State) : Host.Outcome State Fault Refusal :=
  runCommand (doFeed (operandBytes (.feed3 b0 b1 b2))) s

/-- FINAL (R149). -/
def execFinal (s : State) : Host.Outcome State Fault Refusal := runCommand doFinal s

end Sys2Proof.Machine
end

