-- ==== Sys2Proof/Machine/Dispatch.lean ====
section
/-! DEFINITION. One arm per command: each calls its meaning (spec/42_streaming.md R140). -/

namespace Sys2Proof.Machine

def exec (i : Instr) (s : State) : Host.Outcome State Fault Refusal :=
  match i with
  | .nop => Sys2Proof.Machine.execNop s
  | .init a => Sys2Proof.Machine.execInit a s
  | .feed0 => Sys2Proof.Machine.execFeed0 s
  | .feed1 b0 => Sys2Proof.Machine.execFeed1 b0 s
  | .feed2 b0 b1 => Sys2Proof.Machine.execFeed2 b0 b1 s
  | .feed3 b0 b1 b2 => Sys2Proof.Machine.execFeed3 b0 b1 b2 s
  | .final => Sys2Proof.Machine.execFinal s

end Sys2Proof.Machine
end

