-- ==== Sys2Proof/Machine/Window.lean ====
section
/-! DEFINITION. The register window (spec/20_memory.md R52 to R55, spec/10_state.md R29, R30) and one host event
performed on the engine. -/

namespace Sys2Proof.Machine

/-- The registers of the window (R52). -/
inductive WindowReg where
  | cmd
  | status
  | digest (k : Fin 5)
  | reserved
  deriving DecidableEq, Repr

/-- The register at a 4-byte-aligned offset of the window; none where the offset is not aligned (R52, R53). -/
def windowReg (offset : Fin 32) : Option WindowReg :=
  match offset.val with
  | 0x00 => some .cmd
  | 0x04 => some .status
  | 0x08 => some (.digest 0)
  | 0x0C => some (.digest 1)
  | 0x10 => some (.digest 2)
  | 0x14 => some (.digest 3)
  | 0x18 => some (.digest 4)
  | 0x1C => some .reserved
  | _ => none

/-- `D[4k] | D[4k+1] << 8 | D[4k+2] << 16 | D[4k+3] << 24` (R30). -/
def digestWord (d : Vector Byte 20) (k : Fin 5) : Word :=
  packWord .le d[4 * k.val] d[4 * k.val + 1] d[4 * k.val + 2] d[4 * k.val + 3]

/-- What a read of `DIGESTk` returns: the digest in FINALIZED, any value in another phase (R30; log 5). -/
def digestRead (k : Fin 5) (s : State) : Word :=
  if s.phase = .finalized then digestWord s.d k else Config.digestDraw s.epoch k

/-- What a read of a register returns (R54). -/
def readReg (r : WindowReg) (s : State) : Word :=
  match r with
  | .cmd => 0
  | .status => statusWord s
  | .digest k => digestRead k s
  | .reserved => Config.reservedDraw s.reservedReads

/-- A host read of a register: the value goes to the host and no engine state changes (R54). A read of the reserved
offset counts as one draw (log 6). -/
def hostRead (r : WindowReg) (s : State) : State :=
  { s with
    replies := s.replies ++ [readReg r s]
    reservedReads := if r = .reserved then s.reservedReads + 1 else s.reservedReads }

/-- The command of a word written to CMD, performed whole (R55, R140): an illegal word raises ILLEGAL_CMD. -/
def performCommand (w : Word) (s : State) : Host.Outcome State Fault Refusal :=
  match decode w with
  | .ok i => exec i s
  | .error _ => runCommand (fun _ => .error .illegalCmd) s

/-- A host write to a register: a write to CMD issues the word as a command, in an epoch of its own; a write to any
other register has no effect (R55). -/
def hostWrite (r : WindowReg) (w : Word) (s : State) : Host.Outcome State Fault Refusal :=
  match r with
  | .cmd => performCommand w { s with epoch := s.epoch + 1 }
  | .status | .digest _ | .reserved => .next s

/-- The register an access reaches, or why it has no meaning (R53). -/
def accessTarget (offset : Fin 32) (width : Nat) : Except Refusal WindowReg :=
  if width = 32 then
    match windowReg offset with
    | some r => .ok r
    | none => .error .accessAlignment
  else .error .accessWidth

/-- One event of the host's side, performed (R54, R55, R270). -/
def performEvent (e : HostEvent) (s : State) : Host.Outcome State Fault Refusal :=
  match e with
  | .write offset width data =>
    match accessTarget offset width with
    | .ok r => hostWrite r data s
    | .error why => .refused why
  | .read offset width =>
    match accessTarget offset width with
    | .ok r => .next (hostRead r s)
    | .error why => .refused why
  | .reset => .next (resetEngine s)

/-- The next event of the port, performed; with none waiting the engine is idle (R59; logs 1, 2). -/
def performNext (s : State) : Host.Outcome State Fault Refusal :=
  match s.port with
  | [] => .next s
  | e :: rest => performEvent e { s with port := rest }

/-- The host's request that issues `w` as a command (R52, R55). -/
def cmdWrite (w : Word) : HostEvent := .write 0x00 32 w

end Sys2Proof.Machine
end

