-- ==== Sys2Proof/Machine/Step.lean ====
section
/-! DEFINITION. One step of the machine: the next host event of the port, performed atomically (spec/42_streaming.md
R140, spec/20_memory.md R59). -/

namespace Sys2Proof.Machine

/-- One step. -/
def step (s : State) : Host.Outcome State Fault Refusal := performNext s

/-- The state whose next step performs the command of a table word: the host's write of it to CMD is put at the head of
the port (log 14). -/
def State.withFetchWord (s : State) (nbits w : Nat) : State :=
  { s with port := cmdWrite (tableWord nbits w) :: s.port }

end Sys2Proof.Machine
end

