-- ==== Sys2Proof/Machine/Platform.lean ====
section
/-! DEFINITION. The platform's side of the window: `ENGINE_BASE` as an argument (spec/00_scope.md R6,
spec/20_memory.md R52; log 11), and several engine instances (spec/20_memory.md R63, spec/60_exceptions.md R250). -/

namespace Sys2Proof.Machine

/-- An access of a host master on the platform's bus. -/
inductive BusAccess where
  | write (addr width : Nat) (data : Word)
  | read (addr width : Nat)
  deriving DecidableEq, Repr

/-- The offset of a bus address in the 32-byte window at `engineBase`; none outside the window (R52). DESIGN CHOICE,
unsafe: the address an access starts at decides, so one that starts below the window and reaches into it has none, which
the spec leaves open (log 19). -/
def windowOffset (engineBase addr : Nat) : Option (Fin 32) :=
  if h : engineBase ≤ addr ∧ addr < engineBase + 32 then some ⟨addr - engineBase, by omega⟩ else none

/-- The host event of a bus access; none where it starts outside the window, which is the platform's (R52; log 19). -/
def busEvent (engineBase : Nat) : BusAccess → Option HostEvent
  | .write addr width data => (windowOffset engineBase addr).map fun o => .write o width data
  | .read addr width => (windowOffset engineBase addr).map fun o => .read o width

/-- A bus access accepted behind the requests already waiting (R59); one that starts outside the window is not the
engine's and has no effect on it (log 19). -/
def State.accept (engineBase : Nat) (a : BusAccess) (s : State) : State :=
  match busEvent engineBase a with
  | some e => { s with port := s.port ++ [e] }
  | none => s

/-- One step of instance `k` among several (R63, R250); where there is no such instance, nothing happens (log 17).
DESIGN CHOICE, unsafe: the free values depend on a state's own counters and not on the instance, so two instances at one
count draw the same (log 20). -/
def stepInstance (k : Nat) (engines : List State) : Host.Outcome (List State) Fault Refusal :=
  match engines[k]? with
  | none => .next engines
  | some s =>
    match step s with
    | .next t => .next (engines.set k t)
    | .fault r => .fault r
    | .refused r => .refused r

end Sys2Proof.Machine
end

