-- ==== Sys2Proof/Machine/Reference.lean ====
section
/-! DEFINITION. The hash of a whole message, said without buffer, counter or phases: pad, cut into blocks, compress in
order, take the digest (spec/42_streaming.md R150 to R152, spec/40_bitcounter.md R106). The commands are held against
it. -/

namespace Sys2Proof.Machine

/-- How many zero bytes stand between the marker and the length field of a message of `n` bytes (R150, R151). -/
def padZeros (n : Nat) : Nat := (119 - n % blockBytes) % blockBytes

/-- The bit length of `n` bytes, mod 2^64, as 8 bytes with the least significant first (R104, R106). -/
def bitLengthBytes (n : Nat) : List Byte :=
  (List.range lenFieldBytes).map fun k => BitVec.ofNat 8 (8 * n / 256 ^ k)

/-- The length field of a message of `n` bytes: little-endian for MD4, big-endian for SHA-0 (R189, R216). -/
def messageLenField : Alg → Nat → List Byte
  | .md4, n => bitLengthBytes n
  | .sha0, n => (bitLengthBytes n).reverse

/-- The padded message: the message, 0x80, zeros, the length field (R150). -/
def paddedMessage (a : Alg) (m : List Byte) : List Byte :=
  m ++ [0x80] ++ zeros (padZeros m.length) ++ messageLenField a m.length

/-- The first `n` blocks of a byte sequence. -/
def takeBlocks : Nat → List Byte → List (List Byte)
  | 0, _ => []
  | n + 1, s => s.take blockBytes :: takeBlocks n (s.drop blockBytes)

/-- The whole blocks of a byte sequence. -/
def messageBlocks (s : List Byte) : List (List Byte) := takeBlocks (s.length / blockBytes) s

/-- The chaining value after the blocks, in order. -/
def chainBlocks (a : Alg) (h : Vector Word 5) (blocks : List (List Byte)) : Except FaultCode (Vector Word 5) :=
  blocks.foldlM (compressChain a) h

/-- How many bytes the digest has (R154). -/
def digestLength : Alg → Nat
  | .md4 => 16
  | .sha0 => 20

/-- The digest of a whole message (R152). -/
def hashReference (a : Alg) (m : List Byte) : Except FaultCode (List Byte) := do
  let h ← chainBlocks a (initialChain a) (messageBlocks (paddedMessage a m))
  .ok ((digestBytes a h).take (digestLength a))

/-- The digest that the engine's `D` holds (R27, R154). -/
def digestOutput (s : State) : List Byte := s.d.toList.take (digestLength s.alg)

/-- A row of MD4's step table (R191): target lane, the lanes of the function's arguments, message word index and rotate
amount. The lanes a, b, c, d are 0, 1, 2, 3. -/
structure Md4Row where
  target : Fin 4
  x : Fin 4
  y : Fin 4
  z : Fin 4
  word : Nat
  shift : Nat
  deriving DecidableEq, Repr

/-- The rows of round 1 of R191, whose constant is 0x00000000. -/
def md4TableRound1 : List Md4Row :=
  [⟨0, 1, 2, 3, 0, 3⟩, ⟨3, 0, 1, 2, 1, 7⟩, ⟨2, 3, 0, 1, 2, 11⟩, ⟨1, 2, 3, 0, 3, 19⟩,
    ⟨0, 1, 2, 3, 4, 3⟩, ⟨3, 0, 1, 2, 5, 7⟩, ⟨2, 3, 0, 1, 6, 11⟩, ⟨1, 2, 3, 0, 7, 19⟩,
    ⟨0, 1, 2, 3, 8, 3⟩, ⟨3, 0, 1, 2, 9, 7⟩, ⟨2, 3, 0, 1, 10, 11⟩, ⟨1, 2, 3, 0, 11, 19⟩,
    ⟨0, 1, 2, 3, 12, 3⟩, ⟨3, 0, 1, 2, 13, 7⟩, ⟨2, 3, 0, 1, 14, 11⟩, ⟨1, 2, 3, 0, 15, 19⟩]

/-- The rows of round 2 of R191, whose constant is 0x5a827999. -/
def md4TableRound2 : List Md4Row :=
  [⟨0, 1, 2, 3, 0, 3⟩, ⟨3, 0, 1, 2, 4, 5⟩, ⟨2, 3, 0, 1, 8, 9⟩, ⟨1, 2, 3, 0, 12, 13⟩,
    ⟨0, 1, 2, 3, 1, 3⟩, ⟨3, 0, 1, 2, 5, 5⟩, ⟨2, 3, 0, 1, 9, 9⟩, ⟨1, 2, 3, 0, 13, 13⟩,
    ⟨0, 1, 2, 3, 2, 3⟩, ⟨3, 0, 1, 2, 6, 5⟩, ⟨2, 3, 0, 1, 10, 9⟩, ⟨1, 2, 3, 0, 14, 13⟩,
    ⟨0, 1, 2, 3, 3, 3⟩, ⟨3, 0, 1, 2, 7, 5⟩, ⟨2, 3, 0, 1, 11, 9⟩, ⟨1, 2, 3, 0, 15, 13⟩]

/-- The rows of round 3 of R191, whose constant is 0x6ed9eba1. -/
def md4TableRound3 : List Md4Row :=
  [⟨0, 1, 2, 3, 0, 3⟩, ⟨3, 0, 1, 2, 8, 9⟩, ⟨2, 3, 0, 1, 4, 11⟩, ⟨1, 2, 3, 0, 12, 15⟩,
    ⟨0, 1, 2, 3, 2, 3⟩, ⟨3, 0, 1, 2, 10, 9⟩, ⟨2, 3, 0, 1, 6, 11⟩, ⟨1, 2, 3, 0, 14, 15⟩,
    ⟨0, 1, 2, 3, 1, 3⟩, ⟨3, 0, 1, 2, 9, 9⟩, ⟨2, 3, 0, 1, 5, 11⟩, ⟨1, 2, 3, 0, 13, 15⟩,
    ⟨0, 1, 2, 3, 3, 3⟩, ⟨3, 0, 1, 2, 11, 9⟩, ⟨2, 3, 0, 1, 7, 11⟩, ⟨1, 2, 3, 0, 15, 15⟩]

/-- One row of the table performed with its round's function and constant (R191). -/
def md4RowStep (f : Word → Word → Word → Word) (k : Word) (x : List Word) (v : Vector Word 4) (r : Md4Row) :
    Vector Word 4 :=
  v.set r.target (rotl (v[r.target] + f v[r.x] v[r.y] v[r.z] + x.getD r.word 0 + k) r.shift)

/-- The lanes after the 48 rows of R191, on the message words `x`. -/
def md4TableLanes (x : List Word) (v : Vector Word 4) : Vector Word 4 :=
  let v1 := md4TableRound1.foldl (md4RowStep md4F 0x00000000 x) v
  let v2 := md4TableRound2.foldl (md4RowStep md4G 0x5a827999 x) v1
  md4TableRound3.foldl (md4RowStep md4H 0x6ed9eba1 x) v2

end Sys2Proof.Machine
end

