-- ==== Sys2Proof/Machine/Assembler.lean ====
section
/-! DEFINITION. The assembler syntax and the pseudo-instructions (spec/30_encoding.md R79, R80). The spacing, and what
may stand in a string, are this model's choice (log 16). -/

namespace Sys2Proof.Machine

/-- The FEEDs of whole groups of three bytes, and a last one of the 1 or 2 that remain (R80). -/
def feedGroups : List Byte → List Instr
  | [] => []
  | [b0] => [.feed1 b0]
  | [b0, b1] => [.feed2 b0 b1]
  | b0 :: b1 :: b2 :: rest => .feed3 b0 b1 b2 :: feedGroups rest

/-- `FEEDS s` (R80); for empty `s` it is the single command FEED. -/
def feeds : List Byte → List Instr
  | [] => [.feed0]
  | b :: bs => feedGroups (b :: bs)

/-- `HASH alg, s`: `INIT alg`, `FEEDS s`, `FINAL` (R80). -/
def hashCommands (a : Alg) (s : List Byte) : List Instr := .init a :: (feeds s ++ [.final])

/-- The FEED of at most three bytes (R79). -/
def feedOf : List Byte → Option Instr
  | [] => some .feed0
  | [b0] => some (.feed1 b0)
  | [b0, b1] => some (.feed2 b0 b1)
  | [b0, b1, b2] => some (.feed3 b0 b1 b2)
  | _ :: _ :: _ :: _ :: _ => none

/-- Numbers as bytes. -/
def toBytes (s : List Nat) : List Byte := s.map (BitVec.ofNat 8)

/-- The commands of a source line; none where the line is not well formed (R79, R80). -/
def assembleLine (l : SourceLine) : Option (List Instr) :=
  if l.wellFormed then
    match l with
    | .nop => some [.nop]
    | .init a => some [.init a]
    | .feed bs => (feedOf (toBytes bs)).map fun i => [i]
    | .final => some [.final]
    | .feeds s => some (feeds (toBytes s))
    | .hash a s => some (hashCommands a (toBytes s))
  else none

/-- A piece of a source line. Words are kept in capitals, since mnemonics are case-insensitive (R79). -/
inductive Token where
  | word (cs : List Char)
  /-- A character in single quotes, as its ASCII code. -/
  | quoted (code : Nat)
  /-- A double-quoted string, as its ASCII codes. -/
  | string (codes : List Nat)
  | comma
  | lbracket
  | rbracket
  deriving DecidableEq, Repr

/-- The word collected so far, put before the tokens that follow it. -/
def flushWord (acc : List Char) (ts : List Token) : List Token :=
  if acc.isEmpty then ts else .word acc.reverse :: ts

/-- The token of a one-character separator: comma, left bracket, right bracket. -/
def separator (code : Nat) : Option Token :=
  match code with
  | 44 => some .comma
  | 91 => some .lbracket
  | 93 => some .rbracket
  | _ => none

/-- The tokens of a line. `str` holds the codes of an open string, newest first, and `acc` the word so far. The double
quote has code 34 and the single quote code 39. -/
def lex (str : Option (List Nat)) (acc : List Char) (line : List Char) : Option (List Token) :=
  match line with
  | [] =>
    match str with
    | none => some (flushWord acc [])
    | some _ => none
  | c :: rest =>
    match str with
    | some codes =>
      if c.toNat = 34 then (lex none [] rest).map fun ts => .string codes.reverse :: ts
      else if c.toNat < 128 then lex (some (c.toNat :: codes)) [] rest
      else none
    | none =>
      if c.toNat = 34 then (lex (some []) [] rest).map (flushWord acc)
      else if c.toNat = 39 then
        match rest with
        | x :: q :: more =>
          if q.toNat = 39 ∧ x.toNat < 128 then (lex none [] more).map fun ts => flushWord acc (.quoted x.toNat :: ts)
          else none
        | _ => none
      else if c.isWhitespace then (lex none [] rest).map (flushWord acc)
      else
        match separator c.toNat with
        | some t => (lex none [] rest).map fun ts => flushWord acc (t :: ts)
        | none => lex none (c.toUpper :: acc) rest

/-- The value of a digit, in capitals. -/
def digitValue (c : Char) : Option Nat :=
  if 48 ≤ c.toNat ∧ c.toNat ≤ 57 then some (c.toNat - 48)
  else if 65 ≤ c.toNat ∧ c.toNat ≤ 70 then some (c.toNat - 55)
  else none

/-- The number that digits of a base write. -/
def digits (base : Nat) : Nat → List Char → Option Nat
  | n, [] => some n
  | n, c :: cs =>
    match digitValue c with
    | some v => if v < base then digits base (base * n + v) cs else none
    | none => none

/-- A number, in decimal or in hex with `0x` (R79). -/
def number : List Char → Option Nat
  | [] => none
  | '0' :: 'X' :: c :: cs => digits 16 0 (c :: cs)
  | c :: cs => digits 10 0 (c :: cs)

/-- A byte operand: a number or a quoted character (R79). -/
def byteOperand : Token → Option Nat
  | .word cs => number cs
  | .quoted code => some code
  | .string _ | .comma | .lbracket | .rbracket => none

/-- The operands after the first, each after a comma. -/
def moreOperands : List Token → Option (List Nat)
  | [] => some []
  | .comma :: t :: rest => do
    let b ← byteOperand t
    let bs ← moreOperands rest
    some (b :: bs)
  | _ => none

/-- A list of byte operands separated by commas, perhaps empty. -/
def operandList : List Token → Option (List Nat)
  | [] => some []
  | t :: rest => do
    let b ← byteOperand t
    let bs ← moreOperands rest
    some (b :: bs)

/-- The byte sequence of FEEDS and HASH: a double-quoted string or a bracketed byte list (R80). -/
def sequenceOperand : List Token → Option (List Nat)
  | [.string codes] => some codes
  | .lbracket :: rest => if rest.getLast? = some .rbracket then operandList rest.dropLast else none
  | _ => none

/-- `MD4` or `SHA0` (R79). -/
def algOperand (cs : List Char) : Option Alg :=
  if cs = ['M', 'D', '4'] then some .md4
  else if cs = ['S', 'H', 'A', '0'] then some .sha0
  else none

/-- The source line that the tokens write (R79, R80). -/
def parseTokens : List Token → Option SourceLine
  | .word m :: rest =>
    if m = ['N', 'O', 'P'] ∧ rest = [] then some .nop
    else if m = ['F', 'I', 'N', 'A', 'L'] ∧ rest = [] then some .final
    else if m = ['F', 'E', 'E', 'D'] then (operandList rest).map .feed
    else if m = ['F', 'E', 'E', 'D', 'S'] then (sequenceOperand rest).map .feeds
    else
      match rest with
      | [.word a] => if m = ['I', 'N', 'I', 'T'] then (algOperand a).map .init else none
      | .word a :: .comma :: more =>
        if m = ['H', 'A', 'S', 'H'] then do
          let alg ← algOperand a
          let s ← sequenceOperand more
          some (.hash alg s)
        else none
      | _ => none
  | _ => none

/-- The commands that one line of source text stands for; none where it is no line of R79 or R80. -/
def assemble (line : List Char) : Option (List Instr) := do
  let ts ← lex none [] line
  let l ← parseTokens ts
  assembleLine l

end Sys2Proof.Machine
end

