-- ==== Sys2Proof/Machine/Sequence.lean ====
section
/-! DEFINITION. Sequences of commands (spec/42_streaming.md R152, R153) and of host events (spec/20_memory.md R59). -/

namespace Sys2Proof.Machine

/-- The commands, one after the other, each complete before the next (R59). -/
def runCommands : List Instr → State → Host.Outcome State Fault Refusal
  | [], s => .next s
  | i :: is, s =>
    match exec i s with
    | .next t => runCommands is t
    | .fault r => .fault r
    | .refused r => .refused r

/-- `n` steps of the machine, stopping where one stops. -/
def runSteps : Nat → State → Host.Outcome State Fault Refusal
  | 0, s => .next s
  | n + 1, s =>
    match step s with
    | .next t => runSteps n t
    | .fault r => .fault r
    | .refused r => .refused r

/-- The bytes a sequence of commands absorbs, in order (R72, R80). -/
def absorbedBytes (is : List Instr) : List Byte := is.flatMap operandBytes

/-- NOP or a FEED: the commands that may stand between INIT and FINAL of one message (R153, R273). -/
def isFeedOrNop : Instr → Bool
  | .nop => true
  | .init _ => false
  | .feed0 => true
  | .feed1 _ => true
  | .feed2 _ _ => true
  | .feed3 _ _ _ => true
  | .final => false

end Sys2Proof.Machine
end

