-- ==== Sys2Proof/Safety.lean ====
section
/-! DEFINITION. The words that claims about the engine use: a run with no fault, the phase-command matrix
(spec/42_streaming.md R142), the phase invariants (spec/10_state.md R34), what the host can tell apart (R33), and the
effect of FEED and FINAL said in terms of the block. -/

namespace Sys2Proof.Machine

/-- No fault was raised since reset. -/
def Safe (s : State) : Prop := s.phase ≠ .faulted

/-- FEED in one of its four forms. -/
def isFeed : Instr → Bool
  | .nop => false
  | .init _ => false
  | .feed0 => true
  | .feed1 _ => true
  | .feed2 _ _ => true
  | .feed3 _ _ _ => true
  | .final => false

/-- The fault a command raises in a phase, by the matrix of R142. -/
def faultOf (p : Phase) (i : Instr) : Option FaultCode :=
  match p, i with
  | .uninit, .feed0 | .uninit, .feed1 _ | .uninit, .feed2 _ _ | .uninit, .feed3 _ _ _ | .uninit, .final => some .notInit
  | .finalized, .feed0 | .finalized, .feed1 _ | .finalized, .feed2 _ _ | .finalized, .feed3 _ _ _ => some .feedAfterFinal
  | .finalized, .final => some .doubleFinal
  | .uninit, .nop | .uninit, .init _ | .finalized, .nop | .finalized, .init _ => none
  | .absorb, _ => none
  | .faulted, _ => none

/-- The phase after a command, by the matrix of R142. -/
def phaseAfter (p : Phase) (i : Instr) : Phase :=
  match p, i with
  | .faulted, _ => .faulted
  | p, .nop => p
  | .uninit, .init _ | .absorb, .init _ | .finalized, .init _ => .absorb
  | .absorb, .feed0 | .absorb, .feed1 _ | .absorb, .feed2 _ _ | .absorb, .feed3 _ _ _ => .absorb
  | .absorb, .final => .finalized
  | .uninit, .feed0 | .uninit, .feed1 _ | .uninit, .feed2 _ _ | .uninit, .feed3 _ _ _ | .uninit, .final => .faulted
  | .finalized, .feed0 | .finalized, .feed1 _ | .finalized, .feed2 _ _ | .finalized, .feed3 _ _ _ => .faulted
  | .finalized, .final => .faulted

/-- A sequence of commands that raises no fault from a phase, by the matrix of R142. -/
def followsProtocol : Phase → List Instr → Bool
  | _, [] => true
  | p, i :: is => decide (p ≠ .faulted) && (faultOf p i).isNone && followsProtocol (phaseAfter p i) is

/-- `Buf[FILL:64)` is zero (R25). -/
def BufferClear (s : State) : Prop := ∀ i : Fin 64, s.fill ≤ i → s.buf[i] = 0

/-- `H[4]` is 0 while the algorithm is MD4 (R23). -/
def Md4SpareZero (s : State) : Prop := s.alg = .md4 → s.h[4] = 0

/-- The row UNINIT of R34; ALG is 0, since reset clears it and only INIT writes it (R22, R33). -/
def RowUninit (s : State) : Prop := s.fill = 0 ∧ s.alg = .md4

/-- The row ABSORB of R34. The counter holds the bits of whole blocks, so it is a multiple of 512 (R146). -/
def RowAbsorb (s : State) : Prop := BufferClear s ∧ counterValue s.cnt % 512 = 0 ∧ Md4SpareZero s

/-- The row FINALIZED of R34 but for `D`. -/
def RowFinalized (s : State) : Prop :=
  s.fill = 0 ∧ BufferClear s ∧ counterValue s.cnt = 0 ∧ Md4SpareZero s

/-- The phase invariants of R34. In FAULTED the elements are as before the fault, so they are those of a phase in which
the fault's code can be raised (R241); BOUNDS is never raised (R148). -/
def Inv (s : State) : Prop :=
  match s.phase, s.fcode with
  | .uninit, none => RowUninit s
  | .absorb, none => RowAbsorb s
  | .finalized, none => RowFinalized s ∧ s.d = byteRegister 20 (digestBytes s.alg s.h)
  | .faulted, some .illegalCmd => RowUninit s ∨ RowAbsorb s ∨ RowFinalized s
  | .faulted, some .notInit => RowUninit s
  | .faulted, some .doubleFinal | .faulted, some .feedAfterFinal => RowFinalized s
  | .faulted, some .bounds | .faulted, none => False
  | .uninit, some _ | .absorb, some _ | .finalized, some _ => False

/-- Two states that agree on all that R33 gives a reset value, and on the host's side. They may differ in `H`, `CNT`,
`Buf` and `D`. -/
def AgreeOffData (s t : State) : Prop :=
  t = { s with h := t.h, cnt := t.cnt, buf := t.buf, d := t.d }

/-- The blocks that FINAL transforms: one where the tail has at most 55 bytes, two from 56 on (R150, R151). -/
def finalBlocks (s : State) : List (List Byte) :=
  let t := s.fill.val
  let l := lenField s.alg (counterToBytes (counterAdd (BitVec.ofNat 32 (8 * t)) s.cnt))
  let tail := s.buf.toList.take t
  if t ≤ 55 then [tail ++ [0x80] ++ zeros (55 - t) ++ l]
  else [tail ++ [0x80] ++ zeros (63 - t), zeros 56 ++ l]

/-- The buffer with the bytes `bs` written from index `FILL` on. -/
def bufferWith (bs : List Byte) (s : State) : Vector Byte 64 :=
  Vector.ofFn fun i : Fin 64 =>
    if s.fill.val ≤ i.val ∧ i.val < s.fill.val + bs.length then bs.getD (i.val - s.fill.val) 0 else s.buf[i]

/-- The block that `bs` completes: the carried bytes and the first bytes of `bs`. -/
def completedBlock (bs : List Byte) (s : State) : List Byte :=
  s.buf.toList.take s.fill.val ++ bs.take (blockBytes - s.fill.val)

end Sys2Proof.Machine
end

