-- ==== Sys2Proof/Certificates/Slice0/Obligations.lean ====
section
/-! DEFINITION. The statements about the engine, for the provers. Each cites the rule of spec/ it formalises. -/

open Sys2Proof Sys2Proof.Machine

/-! ### Encoding (spec/30_encoding.md) -/

/-- Every command, with every value of its operands, decodes from its own word (R72 to R77). -/
def Obligations.DecodeOfEncode : Prop := ∀ i : Instr, decode (encode i) = .ok i

/-- A legal word is the word of the command it decodes to, so no bit of it is dropped (R73 to R77). -/
def Obligations.EncodeOfDecode : Prop := ∀ (w : Word) (i : Instr), decode w = .ok i → encode i = w

/-- R77, whole: the four tests in their order, and the rows of the opcode table partition the legal words. -/
def Obligations.DecodeIsTotalAndPartitions : Prop :=
  ∀ w : Word,
    (w = 0x00000000#32 → decode w = .ok .nop) ∧
    (w.extractLsb' 1 31 = 0x08000000#31 → decode w = .ok (.init (if w.getLsbD 0 then .sha0 else .md4))) ∧
    (w.extractLsb' 26 6 = 0b001000#6 → w.extractLsb' 0 24 >>> (8 * (w.extractLsb' 24 2).toNat) = 0#24 →
      ∃ i, decode w = .ok i ∧ isFeed i = true ∧
        operandBytes i =
          [w.extractLsb' 0 8, w.extractLsb' 8 8, w.extractLsb' 16 8].take (w.extractLsb' 24 2).toNat) ∧
    (w.extractLsb' 26 6 = 0b001000#6 → w.extractLsb' 0 24 >>> (8 * (w.extractLsb' 24 2).toNat) ≠ 0#24 →
      ∃ e, decode w = .error e) ∧
    (w = 0x30000000#32 → decode w = .ok .final) ∧
    (w ≠ 0x00000000#32 → w.extractLsb' 1 31 ≠ 0x08000000#31 → w.extractLsb' 26 6 ≠ 0b001000#6 → w ≠ 0x30000000#32 →
      ∃ e, decode w = .error e) ∧
    (opcodeTable.filter fun r => r.matches w).length ≤ 1 ∧
    ((opcodeTable.filter fun r => r.matches w) = [] ↔ ∃ e, decode w = .error e)

/-- R78, whole: the illegal words are those of its list; in UNINIT, ABSORB and FINALIZED they raise ILLEGAL_CMD, and in
FAULTED they have no effect. -/
def Obligations.IllegalWordsAndTheirFault : Prop :=
  ∀ w : Word,
    ((∃ e, decode w = .error e) ↔
      (4 ≤ (w.extractLsb' 28 4).toNat ∨
        (w.extractLsb' 28 4 = 0#4 ∧ w.extractLsb' 0 28 ≠ 0#28) ∨
        (w.extractLsb' 28 4 = 1#4 ∧ w.extractLsb' 1 27 ≠ 0#27) ∨
        (w.extractLsb' 28 4 = 2#4 ∧
          (w.extractLsb' 26 2 ≠ 0#2 ∨ ∃ k, k < 3 ∧ (w.extractLsb' 24 2).toNat ≤ k ∧ w.extractLsb' (8 * k) 8 ≠ 0#8)) ∨
        (w.extractLsb' 28 4 = 3#4 ∧ w.extractLsb' 0 28 ≠ 0#28))) ∧
    ∀ e s, decode w = .error e →
      (s.phase ≠ .faulted → performCommand w s = .next { s with phase := .faulted, fcode := some .illegalCmd }) ∧
      (s.phase = .faulted → performCommand w s = .next s)

/-- The field check of R71 accepts exactly the words that decode to a command. -/
def Obligations.FieldCheckAgreesWithDecode : Prop :=
  ∀ w : Word, (fieldsOf w).wellFormed = true ↔ ∃ i, decode w = .ok i

/-- Words written out from R73 to R76 decode to the commands they stand for. -/
def Obligations.WordsFromTheManualDecode : Prop :=
  decode 0x00000000#32 = .ok .nop ∧ decode 0x10000000#32 = .ok (.init .md4) ∧ decode 0x10000001#32 = .ok (.init .sha0) ∧
  decode 0x20000000#32 = .ok .feed0 ∧ decode 0x21000061#32 = .ok (.feed1 0x61) ∧
  decode 0x22006261#32 = .ok (.feed2 0x61 0x62) ∧ decode 0x23636261#32 = .ok (.feed3 0x61 0x62 0x63) ∧
  decode 0x30000000#32 = .ok .final

/-- The assembler's lines and their words, for every byte operand (the table of R79); a FEED line of more than three
bytes, or with an operand above 255, is no line. -/
def Obligations.AssemblerLinesAndWords : Prop :=
  (∀ b0 b1 b2 : Byte,
    assembleLine .nop = some [.nop] ∧ encode .nop = 0x00000000#32 ∧
    assembleLine (.init .md4) = some [.init .md4] ∧ encode (.init .md4) = 0x10000000#32 ∧
    assembleLine (.init .sha0) = some [.init .sha0] ∧ encode (.init .sha0) = 0x10000001#32 ∧
    assembleLine (.feed []) = some [.feed0] ∧ encode .feed0 = 0x20000000#32 ∧
    assembleLine (.feed [b0.toNat]) = some [.feed1 b0] ∧ encode (.feed1 b0) = 0x21000000#32 ||| b0.setWidth 32 ∧
    assembleLine (.feed [b0.toNat, b1.toNat]) = some [.feed2 b0 b1] ∧
    encode (.feed2 b0 b1) = 0x22000000#32 ||| b1.setWidth 32 <<< 8 ||| b0.setWidth 32 ∧
    assembleLine (.feed [b0.toNat, b1.toNat, b2.toNat]) = some [.feed3 b0 b1 b2] ∧
    encode (.feed3 b0 b1 b2) = 0x23000000#32 ||| b2.setWidth 32 <<< 16 ||| b1.setWidth 32 <<< 8 ||| b0.setWidth 32 ∧
    assembleLine .final = some [.final] ∧ encode .final = 0x30000000#32) ∧
  ∀ bs : List Nat, (3 < bs.length ∨ ∃ b ∈ bs, 255 < b) → assembleLine (.feed bs) = none

/-- The expansions of R80: FEEDS absorbs exactly the bytes of `s`, in order, by FEEDs of three bytes and a last one of the 1 or 2
that remain (the single command FEED for empty `s`), and HASH is INIT, FEEDS, FINAL. -/
def Obligations.FeedsExpansion : Prop :=
  (∀ s : List Byte,
    absorbedBytes (feeds s) = s ∧
    (∀ i ∈ feeds s, isFeed i = true) ∧
    (∀ (k : Nat) (i : Instr), (feeds s)[k]? = some i → k + 1 < (feeds s).length → (operandBytes i).length = 3) ∧
    (feeds s).length = (if s = [] then 1 else (s.length + 2) / 3) ∧
    ∀ a, hashCommands a s = [.init a] ++ feeds s ++ [.final]) ∧
  feeds [] = [.feed0]

/-! ### The step, the port and the register window (spec/20_memory.md, spec/42_streaming.md R140, R141) -/

/-- When the request at the head of the port writes to CMD a word that decodes to the command `i`, a step is `exec i`,
after that request has left the port and the epoch of the free values has advanced (R55, R140; logs 1, 5). -/
def Obligations.StepRunsDecodedCommand : Prop :=
  ∀ (s : State) (w : Word) (i : Instr) (rest : List HostEvent),
    s.port = cmdWrite w :: rest → decode w = .ok i → step s = exec i { s with port := rest, epoch := s.epoch + 1 }

/-- A step whose CMD word is illegal raises ILLEGAL_CMD in every phase but FAULTED, UNINIT included (R140, R242). -/
def Obligations.StepOnIllegalWordFaults : Prop :=
  ∀ (s : State) (w : Word) (e : IllegalWord) (rest : List HostEvent),
    s.phase ≠ .faulted → s.port = cmdWrite w :: rest → decode w = .error e →
      step s = .next { s with port := rest, epoch := s.epoch + 1, phase := .faulted, fcode := some .illegalCmd }

/-- In FAULTED no word has an effect on the engine, PHASE and FCODE keep, and only reset leaves FAULTED (R141). That the
step takes the request off the port and advances the epoch is the model's choice (logs 1, 5). -/
def Obligations.FaultedIgnoresEveryCommand : Prop :=
  (∀ (s : State) (w : Word) (rest : List HostEvent),
    s.phase = .faulted → s.port = cmdWrite w :: rest →
      step s = .next { s with port := rest, epoch := s.epoch + 1 }) ∧
  ∀ s t : State, s.phase = .faulted → step s = .next t → s.port.head? ≠ some .reset →
    t.phase = .faulted ∧ t.fcode = s.fcode

/-- Every command of every state completes: no command stops the engine (R279: "every command completes"). -/
def Obligations.EveryCommandCompletes : Prop := ∀ (i : Instr) (s : State), ∃ t, exec i s = .next t

/-- A step takes exactly the oldest request off the port, so requests take effect in the order accepted (R59). That the
requests behind a reset stay too is the model's choice (log 10), and so is the port itself (log 1). -/
def Obligations.RequestsTakeEffectInOrder : Prop := ∀ s t : State, step s = .next t → t.port = s.port.tail

/-- A write to STATUS, DIGESTk or offset 0x1C has no effect but that the request is done (R55). -/
def Obligations.ReadOnlyWritesHaveNoEffect : Prop :=
  ∀ (s : State) (offset : Fin 32) (w : Word) (rest : List HostEvent),
    offset ≠ 0 → offset.val % 4 = 0 → s.port = .write offset 32 w :: rest → step s = .next { s with port := rest }

/-- R54, whole: what each register reads as, that a read changes no engine state, and that two reads with no command
(and no reset) between them return the same value, but for 0x1C, where each read is a draw of its own. -/
def Obligations.ReadsHaveNoSideEffect : Prop :=
  (∀ (s : State) (offset : Fin 32) (rest : List HostEvent) (r : WindowReg),
    s.port = .read offset 32 :: rest → windowReg offset = some r →
      ∃ n, step s = .next { s with port := rest, replies := s.replies ++ [readReg r s], reservedReads := n } ∧
        (r = .reserved → n = s.reservedReads + 1) ∧ (r ≠ .reserved → n = s.reservedReads)) ∧
  (∀ s : State, readReg .cmd s = 0 ∧ readReg .status s = statusWord s ∧
    (∀ k, readReg (.digest k) s = digestRead k s) ∧ readReg .reserved s = Config.reservedDraw s.reservedReads) ∧
  ∀ (s t : State) (r : WindowReg), step s = .next t → r ≠ .reserved → s.port.head? ≠ some .reset →
    (∀ w, s.port.head? ≠ some (cmdWrite w)) → readReg r t = readReg r s

/-- The fields of STATUS and its bits that read 0 (the table of R29), each value of PHASE, ALG and FCODE written out from
R21, R22 and R241. -/
def Obligations.StatusFields : Prop :=
  ∀ s : State,
    (statusWord s).extractLsb' 0 2 =
      (match s.phase with | .uninit => 0#2 | .absorb => 1#2 | .finalized => 2#2 | .faulted => 3#2) ∧
    (statusWord s).extractLsb' 2 1 = (match s.alg with | .md4 => 0#1 | .sha0 => 1#1) ∧
    (statusWord s).extractLsb' 3 1 = 0 ∧
    (statusWord s).extractLsb' 4 4 =
      (match s.fcode with
        | none => 0#4
        | some .illegalCmd => 1#4
        | some .notInit => 2#4
        | some .doubleFinal => 3#4
        | some .feedAfterFinal => 4#4
        | some .bounds => 5#4) ∧
    ((statusWord s).extractLsb' 8 6).toNat = s.fill.val ∧ (statusWord s).extractLsb' 14 18 = 0

/-- A 32-bit access at a 4-byte-aligned offset is performed; an access of another width, or at another offset, is
refused, with no split and no merge (R53). The two names, and that the width is looked at first, are the model's
(log 9). -/
def Obligations.OnlyAlignedWordAccessesHaveAMeaning : Prop :=
  ∀ (s : State) (offset : Fin 32) (width : Nat) (w : Word) (rest : List HostEvent),
    (s.port = .write offset width w :: rest ∨ s.port = .read offset width :: rest) →
      ((width = 32 ∧ offset.val % 4 = 0) → ∃ t, step s = .next t) ∧
      (width ≠ 32 → step s = .refused .accessWidth) ∧
      ((width = 32 ∧ offset.val % 4 ≠ 0) → step s = .refused .accessAlignment)

/-- The registers stand at their offsets of the 32-byte window at ENGINE_BASE, whatever that base is (the table of R52);
an access that starts in the window becomes a request behind those waiting (R59). An access that starts outside the window
is no request of this engine, even if it reaches into the window: for that one the spec is silent, and the start address
decides (log 19). -/
def Obligations.WindowIsAtEngineBase : Prop :=
  (∀ (base : Nat) (o : Fin 32), windowOffset base (base + o.val) = some o ∧
    ∀ (s : State) (width : Nat) (w : Word),
      s.accept base (.write (base + o.val) width w) = { s with port := s.port ++ [.write o width w] } ∧
      s.accept base (.read (base + o.val) width) = { s with port := s.port ++ [.read o width] }) ∧
  (∀ base addr : Nat, (addr < base ∨ base + 32 ≤ addr) →
    ∀ (s : State) (width : Nat) (w : Word),
      s.accept base (.write addr width w) = s ∧ s.accept base (.read addr width) = s) ∧
  windowReg 0x00 = some .cmd ∧ windowReg 0x04 = some .status ∧ windowReg 0x1C = some .reserved ∧
  ∀ k : Fin 5, windowReg ⟨8 + 4 * k.val, by omega⟩ = some (.digest k)

/-- R63, whole: a step of one instance changes nothing in another, and it is the step of that instance alone. -/
def Obligations.InstancesShareNoState : Prop :=
  ∀ (k : Nat) (engines after : List State), stepInstance k engines = .next after →
    after.length = engines.length ∧ (∀ j, j ≠ k → after[j]? = engines[j]?) ∧
    ∀ s t, engines[k]? = some s → step s = .next t → after[k]? = some t

/-! ### Reset and faults (spec/10_state.md R33, spec/60_exceptions.md, spec/70_reset_and_hazards.md) -/

/-- What reset leaves in the elements R33 gives a value, in the state after power-on; STATUS reads 0. -/
def Obligations.ResetLeavesUninit : Prop :=
  State.reset.phase = .uninit ∧ State.reset.alg = .md4 ∧ State.reset.fcode = none ∧ State.reset.fill = 0 ∧
    statusWord State.reset = 0

/-- A reset in any state, FAULTED included, gives R33's state: PHASE, ALG, FCODE and FILL as it says, `H`, `CNT`, `Buf`
and `D` any value (R270). The host's side stays (the model's choice, log 10). -/
def Obligations.ResetFromAnyState : Prop :=
  ∀ (s : State) (rest : List HostEvent), s.port = .reset :: rest →
    ∃ h cnt buf d, step s = .next { s with
      phase := .uninit, alg := .md4, fcode := none, fill := 0, h := h, cnt := cnt, buf := buf, d := d,
      port := rest, epoch := s.epoch + 1 }

/-- "The unspecified values cannot be observed" (R33): two engines in UNINIT that differ only in `H`, `CNT`, `Buf` and
`D` give the host the same replies and the same STATUS after any number of steps. The draws are the same in both (the
model's form of a draw, logs 4 to 6), and in both the requests behind a reset stay (the model's choice, log 10). -/
def Obligations.UnspecifiedResetValuesUnobservable : Prop :=
  ∀ (n : Nat) (s t : State), s.phase = .uninit → AgreeOffData s t →
    (∀ s', runSteps n s = .next s' →
      ∃ t', runSteps n t = .next t' ∧ t'.replies = s'.replies ∧ statusWord t' = statusWord s' ∧
        (s'.phase = .finalized → t'.d = s'.d)) ∧
    ∀ why, runSteps n s = .refused why → runSteps n t = .refused why

/-- R240, whole: raising a fault writes PHASE and FCODE and nothing else, but for BOUNDS, after which `H`, `CNT`, `Buf`,
`FILL` and `D` are any value; and a word that faults, legal or not, has changed nothing else. -/
def Obligations.FaultsArePrecise : Prop :=
  (∀ (code : FaultCode) (s : State), code ≠ .bounds →
    raiseFault code s = { s with phase := .faulted, fcode := some code }) ∧
  (∀ s : State, ∃ h cnt buf fill d, raiseFault .bounds s = { s with
    phase := .faulted, fcode := some .bounds, h := h, cnt := cnt, buf := buf, fill := fill, d := d }) ∧
  ∀ (w : Word) (s t : State), performCommand w s = .next t → s.phase ≠ .faulted → t.phase = .faulted →
    t = { s with phase := .faulted, fcode := t.fcode }

/-- Which fault a command raises, by phase, is R241's and R242's: NOT_INIT for FEED and FINAL in UNINIT,
FEED_AFTER_FINAL and DOUBLE_FINAL in FINALIZED; a command whose check fails only raises its fault. -/
def Obligations.PhaseFaults : Prop :=
  ∀ (i : Instr) (s : State),
    (isFeed i = true → s.phase = .uninit → exec i s = .next { s with phase := .faulted, fcode := some .notInit }) ∧
    (isFeed i = true → s.phase = .finalized →
      exec i s = .next { s with phase := .faulted, fcode := some .feedAfterFinal }) ∧
    (s.phase = .uninit → exec .final s = .next { s with phase := .faulted, fcode := some .notInit }) ∧
    (s.phase = .finalized → exec .final s = .next { s with phase := .faulted, fcode := some .doubleFinal })

/-- R148, whole: transforming a block of other than 64 bytes raises BOUNDS, and no command of any state raises it. -/
def Obligations.BoundsIsUnreachable : Prop :=
  (∀ (a : Alg) (h : Vector Word 5) (block : List Byte), block.length ≠ 64 →
    compressChain a h block = .error .bounds) ∧
  ∀ s t : State, step s = .next t → t.fcode = some .bounds → s.fcode = some .bounds

/-- The counter's wrap is no fault (R246): in ABSORB a command completes with the phase that the matrix of R142 gives it
and with the same FCODE, whatever the counter holds. -/
def Obligations.CounterWrapIsNoFault : Prop :=
  ∀ (i : Instr) (s : State) (cnt : Vector Word 2), s.phase = .absorb →
    ∃ t, exec i { s with cnt := cnt } = .next t ∧ t.phase = phaseAfter .absorb i ∧ t.fcode = s.fcode

/-! ### The phases (spec/10_state.md R21, R22, R34, spec/42_streaming.md R142) -/

/-- R142, whole: the outcome of each command, and of an illegal word, in each phase. -/
def Obligations.PhaseCommandMatrix : Prop :=
  ∀ s : State,
    exec .nop s = .next s ∧
    (∀ i, s.phase = .faulted → exec i s = .next s) ∧
    (∀ a, s.phase ≠ .faulted → ∃ t, doInit a s = .ok t ∧ exec (.init a) s = .next t ∧ t.phase = .absorb) ∧
    (∀ i, isFeed i = true → s.phase = .absorb →
      ∃ t, absorbBytes (operandBytes i) s = .ok t ∧ exec i s = .next t ∧ t.phase = .absorb) ∧
    (s.phase = .absorb → ∃ t, finalize s = .ok t ∧ exec .final s = .next t ∧ t.phase = .finalized) ∧
    (∀ i c, faultOf s.phase i = some c → exec i s = .next { s with phase := .faulted, fcode := some c }) ∧
    (∀ w e, decode w = .error e → s.phase ≠ .faulted →
      performCommand w s = .next { s with phase := .faulted, fcode := some .illegalCmd }) ∧
    (∀ w, s.phase = .faulted → performCommand w s = .next s)

/-- A sequence of commands from a state with no fault ends with no fault exactly when it keeps the use cycle: INIT
before FEED and FINAL, and INIT again after FINAL (R142, R273). -/
def Obligations.NoFaultIffProtocolKept : Prop :=
  ∀ (is : List Instr) (s t : State), Safe s → runCommands is s = .next t →
    (followsProtocol s.phase is = true ↔ Safe t)

/-- The phase invariants of R34, which every step keeps, from every state that meets them. -/
def Obligations.PhaseInvariantKept : Prop := ∀ s t : State, Inv s → step s = .next t → Inv t

/-- The phase invariants of R34 hold after power-on reset. -/
def Obligations.PhaseInvariantAtReset : Prop := Inv State.reset

/-- Only INIT writes ALG; reset sets it to 0 (R22, R33). -/
def Obligations.OnlyInitWritesAlg : Prop :=
  ∀ s t : State, step s = .next t → t.alg ≠ s.alg →
    s.port.head? = some .reset ∨ ∃ w a, s.port.head? = some (cmdWrite w) ∧ decode w = .ok (.init a) ∧ t.alg = a

/-- Only FINAL writes `D`; a reset leaves it any value (R27, R33). -/
def Obligations.OnlyFinalWritesDigest : Prop :=
  ∀ s t : State, step s = .next t → t.d ≠ s.d →
    s.port.head? = some .reset ∨ ∃ w, s.port.head? = some (cmdWrite w) ∧ decode w = .ok .final

/-- Only INIT and Compress write `H`: INIT, a FEED that completes a block, FINAL; a reset leaves it any value (R23). -/
def Obligations.OnlyInitAndCompressWriteChain : Prop :=
  ∀ s t : State, step s = .next t → t.h ≠ s.h →
    s.port.head? = some .reset ∨ ∃ w i, s.port.head? = some (cmdWrite w) ∧ decode w = .ok i ∧
      ((∃ a, i = .init a) ∨ (isFeed i = true ∧ 64 ≤ s.fill.val + (operandBytes i).length) ∨ i = .final)

/-! ### The commands (spec/42_streaming.md R143 to R151), each with its frame: the next state is written out whole -/

/-- R143, whole: NOP, the word 0, has no effect in every phase. -/
def Obligations.NopHasNoEffect : Prop := decode 0x00000000#32 = .ok .nop ∧ ∀ s : State, exec .nop s = .next s

/-- R144's pseudocode, with R180's and R210's initial values: INIT in UNINIT, ABSORB or FINALIZED writes ALG, `H`, the
counter, the buffer, FILL and PHASE, and nothing else; twice in a row it leaves the state it leaves once. -/
def Obligations.InitSetsTheInitialState : Prop :=
  ∀ (a : Alg) (s : State), s.phase ≠ .faulted →
    ∃ t, t = { s with
      alg := a
      h := match a with
        | .md4 => #v[0x67452301, 0xefcdab89, 0x98badcfe, 0x10325476, 0]
        | .sha0 => #v[0x67452301, 0xefcdab89, 0x98badcfe, 0x10325476, 0xc3d2e1f0]
      cnt := #v[0, 0]
      buf := Vector.replicate 64 0
      fill := 0
      phase := .absorb } ∧
    exec (.init a) s = .next t ∧ exec (.init a) t = .next t

/-- FEED in ABSORB with room in the block (each of its four forms, zero-length included): the bytes are written to the
buffer from FILL on, in lane order, FILL grows by their number, and nothing else changes (R145, R146). -/
def Obligations.FeedFillsTheBuffer : Prop :=
  ∀ (i : Instr) (s : State), isFeed i = true → s.phase = .absorb →
    ∀ room : s.fill.val + (operandBytes i).length < 64,
      exec i s = .next { s with
        buf := bufferWith (operandBytes i) s
        fill := ⟨s.fill.val + (operandBytes i).length, room⟩ }

/-- FEED in ABSORB that reaches the end of the block: the full block is compressed into `H`, the counter grows by 512,
the rest of the bytes start a zeroed buffer, and nothing else changes (R145, R146, R147). -/
def Obligations.FeedCompressesAFullBlock : Prop :=
  ∀ (i : Instr) (s : State), isFeed i = true → s.phase = .absorb → 64 ≤ s.fill.val + (operandBytes i).length →
    ∃ h, compressChain s.alg s.h (completedBlock (operandBytes i) s) = .ok h ∧
      exec i s = .next { s with
        h := h
        cnt := counterAdd 512 s.cnt
        buf := byteRegister 64 ((operandBytes i).drop (64 - s.fill.val))
        fill := Fin.ofNat 64 (s.fill.val + (operandBytes i).length - 64) }

/-- R147, whole: `Compress` of other than 64 bytes raises BOUNDS; of 64 bytes it runs MD4's transform on `H[0..3]` and
keeps `H[4]` where ALG is MD4, and SHA-0's on `H[0..4]` where ALG is SHA-0, and it writes nothing but `H`. -/
def Obligations.CompressRunsTheSelectedTransform : Prop :=
  ∀ (s : State) (block : List Byte),
    (block.length ≠ 64 → compress block s = .error .bounds) ∧
    (block.length = 64 → s.alg = .md4 →
      ∃ o : Vector Word 4, md4Compress #v[s.h[0], s.h[1], s.h[2], s.h[3]] block = .ok o ∧
        compressChain .md4 s.h block = .ok #v[o[0], o[1], o[2], o[3], s.h[4]] ∧
        compress block s = .ok { s with h := #v[o[0], o[1], o[2], o[3], s.h[4]] }) ∧
    (block.length = 64 → s.alg = .sha0 →
      ∃ o : Vector Word 5, sha0Compress s.h block = .ok o ∧ compressChain .sha0 s.h block = .ok o ∧
        compress block s = .ok { s with h := o })

/-- FINAL in ABSORB: one or two blocks are compressed (R150, R151), the digest is written to `D`, the counter and the
buffer are cleared, PHASE becomes FINALIZED, `H` keeps the final chaining value, and nothing else changes (R149). -/
def Obligations.FinalWritesTheDigest : Prop :=
  ∀ s : State, s.phase = .absorb →
    ∃ h, chainBlocks s.alg s.h (finalBlocks s) = .ok h ∧
      exec .final s = .next { s with
        phase := .finalized
        h := h
        cnt := #v[0, 0]
        buf := Vector.replicate 64 0
        fill := 0
        d := byteRegister 20 (digestBytes s.alg h) }

/-- The double-block condition: a tail of 56 bytes or more takes two final blocks, a shorter one takes one, each of 64
bytes, the length field last (R150, R151); and the whole message takes as many compressions as R156 says. -/
def Obligations.PaddingBoundary : Prop :=
  (∀ s : State,
    (finalBlocks s).length = (if 56 ≤ s.fill.val then 2 else 1) ∧ (∀ b ∈ finalBlocks s, b.length = 64) ∧
    (finalBlocks s).flatten =
      s.buf.toList.take s.fill.val ++ [0x80] ++ zeros (padZeros s.fill.val) ++
        lenField s.alg (counterToBytes (counterAdd (BitVec.ofNat 32 (8 * s.fill.val)) s.cnt))) ∧
  ∀ (a : Alg) (m : List Byte),
    (messageBlocks (paddedMessage a m)).length = m.length / 64 + (if m.length % 64 ≤ 55 then 1 else 2)

/-! ### Whole messages (spec/42_streaming.md R152 to R155, spec/40_bitcounter.md R104) -/

/-- `HASH a, m` from any state with no fault leaves FINALIZED with the digest of the padded message in `D`, whatever the
state before INIT was (R152, R192, R218). -/
def Obligations.HashComputesTheReference : Prop :=
  ∀ (a : Alg) (m : List Byte) (s : State), Safe s →
    ∃ t, runCommands (hashCommands a m) s = .next t ∧ t.phase = .finalized ∧ t.alg = a ∧
      hashReference a m = .ok (digestOutput t)

/-- R153: any two sequences of FEEDs and NOPs that absorb the same bytes, between INIT and FINAL, leave the same `D`,
from any two states with no fault. -/
def Obligations.StreamingEquivalence : Prop :=
  ∀ (a : Alg) (is js : List Instr) (s t : State), Safe s → Safe t →
    (∀ i ∈ is, isFeedOrNop i = true) → (∀ j ∈ js, isFeedOrNop j = true) → absorbedBytes is = absorbedBytes js →
    ∃ s' t', runCommands ([.init a] ++ is ++ [.final]) s = .next s' ∧
      runCommands ([.init a] ++ js ++ [.final]) t = .next t' ∧ s'.phase = .finalized ∧ t'.phase = .finalized ∧
      s'.d = t'.d

/-- R155, whole: INIT after FINAL and the same FEEDs (and NOPs) and FINAL give the same `D`. -/
def Obligations.ReuseReproducesTheDigest : Prop :=
  ∀ (a : Alg) (is : List Instr) (s t : State), Safe s → (∀ i ∈ is, isFeedOrNop i = true) →
    runCommands ([.init a] ++ is ++ [.final]) s = .next t →
      ∃ u, runCommands ([.init a] ++ is ++ [.final]) t = .next u ∧ u.d = t.d

/-- R154: FINAL writes 16 digest bytes under MD4 (and four zeros after them) and 20 under SHA-0, for every message. -/
def Obligations.DigestLengthIsFixed : Prop :=
  ∀ (a : Alg) (m : List Byte), ∃ digest, hashReference a m = .ok digest ∧
    digest.length = (match a with | .md4 => 16 | .sha0 => 20) ∧
    ∀ s t : State, Safe s → runCommands (hashCommands a m) s = .next t →
      t.d.toList = digest ++ (match a with | .md4 => zeros 4 | .sha0 => [])

/-- In ABSORB the counter holds 8 bits for each byte of the whole blocks absorbed since INIT, mod 2^64, and FILL the
rest of the bytes (R104, and R34's entry for CNT). -/
def Obligations.CounterCountsAbsorbedBits : Prop :=
  ∀ (a : Alg) (is : List Instr) (s t : State), Safe s → (∀ i ∈ is, isFeedOrNop i = true) →
    runCommands ([.init a] ++ is) s = .next t →
      t.phase = .absorb ∧ t.fill.val = (absorbedBytes is).length % 64 ∧
        counterValue t.cnt = 8 * ((absorbedBytes is).length - t.fill.val) % 2 ^ 64

/-- A host that writes the words of a sequence of commands to CMD gets the sequence run, one command a step, in the
order accepted (R59, R140). The epoch of the free values counts the commands (the model's own, log 5). -/
def Obligations.PortRunsCommandsInOrder : Prop :=
  ∀ (is : List Instr) (s t : State), runCommands is s = .next t →
    runSteps is.length { s with port := is.map (fun i => cmdWrite (encode i)) ++ s.port } =
      .next { t with epoch := t.epoch + is.length }

/-! ### The BitCounter (spec/40_bitcounter.md) -/

/-- R101: the low word wraps and its carry goes to the high word, whose carry is discarded; the value becomes
`(old + n) mod 2^64`. -/
def Obligations.CounterAddIsMod64 : Prop :=
  ∀ (n : Word) (cnt : Vector Word 2),
    (counterAdd n cnt)[0].toNat = (cnt[0].toNat + n.toNat) % 2 ^ 32 ∧
    (counterAdd n cnt)[1].toNat = (cnt[1].toNat + (cnt[0].toNat + n.toNat) / 2 ^ 32) % 2 ^ 32 ∧
    counterValue (counterAdd n cnt) = (counterValue cnt + n.toNat) % 2 ^ 64

/-- R103: eight bytes, byte `k` being the byte `k mod 4` of `CNT[k div 4]`, so the least significant comes first. -/
def Obligations.CounterBytesAreLittleEndian : Prop :=
  ∀ cnt : Vector Word 2,
    (counterToBytes cnt).length = 8 ∧
    ∀ k : Fin 8,
      ((counterToBytes cnt)[k.val]?).map BitVec.toNat =
          some ((cnt[k.val / 4]'(by omega)).toNat / 2 ^ (8 * (k.val % 4)) % 256) ∧
      ((counterToBytes cnt)[k.val]?).map BitVec.toNat = some (counterValue cnt / 256 ^ k.val % 256)

/-! ### WordPacking (spec/41_wordpacking.md) -/

/-- R121, R122 and the check of R124: the words of a byte sequence in each order; a length that is not a multiple of 4
raises BOUNDS. -/
def Obligations.BytesToWordsFormulas : Prop :=
  ∀ (s : List Byte) (o : ByteOrder),
    (s.length % 4 ≠ 0 → bytesToWords s o = .error .bounds) ∧
    (s.length % 4 = 0 → ∃ ws, bytesToWords s o = .ok ws ∧ ws.length = s.length / 4 ∧
      ∀ i, i < s.length / 4 → ws.getD i 0 =
        match o with
        | .le => (s.getD (4 * i) 0).setWidth 32 ||| (s.getD (4 * i + 1) 0).setWidth 32 <<< 8 |||
            (s.getD (4 * i + 2) 0).setWidth 32 <<< 16 ||| (s.getD (4 * i + 3) 0).setWidth 32 <<< 24
        | .be => (s.getD (4 * i) 0).setWidth 32 <<< 24 ||| (s.getD (4 * i + 1) 0).setWidth 32 <<< 16 |||
            (s.getD (4 * i + 2) 0).setWidth 32 <<< 8 ||| (s.getD (4 * i + 3) 0).setWidth 32)

/-- R125, whole: the two conversions are inverse, and the two orders differ by the reversal of each word's bytes. -/
def Obligations.WordPackingInverse : Prop :=
  (∀ (s : List Byte) (o : ByteOrder) (ws : List Word), bytesToWords s o = .ok ws → wordsToBytes ws o = s) ∧
  (∀ (ws : List Word) (o : ByteOrder), bytesToWords (wordsToBytes ws o) o = .ok ws) ∧
  ∀ (s : List Byte) (bs ls : List Word), bytesToWords s .be = .ok bs → bytesToWords s .le = .ok ls →
    bs.length = ls.length ∧
    ∀ i, i < bs.length → wordsToBytes [bs.getD i 0] .le = (wordsToBytes [ls.getD i 0] .le).reverse

/-! ### The rotate (spec/00_scope.md R8) -/

/-- R8's rotate left of a word, for `0 < n < 32`: the formula, and bit by bit, the top `n` bits coming back at the
bottom. -/
def Obligations.RotateLeftMovesEachBit : Prop :=
  ∀ (x : Word) (n : Nat), 0 < n → n < 32 →
    (rotl x n).toNat = (x.toNat * 2 ^ n ||| x.toNat / 2 ^ (32 - n)) % 2 ^ 32 ∧
    ∀ i, i < 32 → (rotl x n).getLsbD ((i + n) % 32) = x.getLsbD i

/-! ### MD4 (spec/43_md4.md) -/

/-- R182, whole: the formulas, and what they are bit by bit: select, majority, parity. -/
def Obligations.Md4FunctionsBitwise : Prop :=
  ∀ (x y z : Word) (i : Nat), i < 32 →
    md4F x y z = (x &&& y) ||| (~~~x &&& z) ∧ md4G x y z = (x &&& y) ||| (x &&& z) ||| (y &&& z) ∧
    md4H x y z = x ^^^ y ^^^ z ∧
    (md4F x y z).getLsbD i = (if x.getLsbD i then y.getLsbD i else z.getLsbD i) ∧
    ((md4G x y z).getLsbD i = true ↔ 2 ≤ (x.getLsbD i).toNat + (y.getLsbD i).toNat + (z.getLsbD i).toNat) ∧
    ((md4H x y z).getLsbD i = true ↔ ((x.getLsbD i).toNat + (y.getLsbD i).toNat + (z.getLsbD i).toNat) % 2 = 1)

/-- The loops of R187 perform the 48 rows of the step table R191, then the feed-forward of R188. -/
def Obligations.Md4CompressFollowsTheTable : Prop :=
  ∀ (hin : Vector Word 4) (block : List Byte) (x : List Word), block.length = 64 → bytesToWords block .le = .ok x →
    ∃ hout, md4Compress hin block = .ok hout ∧
      ∀ i : Fin 4, hout[i] = hin[i] + (md4TableLanes x hin)[i]

/-- The length field in the last words of the last block that FINAL transforms: under MD4 `X[14]`, `X[15]` are the low
and high word of the counter after the tail is added (R189), under SHA-0 `W[14]`, `W[15]` its high and low word (R216). -/
def Obligations.LengthFieldWords : Prop :=
  (∀ cnt : Vector Word 2,
    bytesToWords (lenField .md4 (counterToBytes cnt)) .le = .ok [cnt[0], cnt[1]] ∧
    bytesToWords (lenField .sha0 (counterToBytes cnt)) .be = .ok [cnt[1], cnt[0]]) ∧
  ∀ (s : State) (cnt : Vector Word 2), cnt = counterAdd (BitVec.ofNat 32 (8 * s.fill.val)) s.cnt →
    ∃ block, (finalBlocks s).getLast? = some block ∧
      (s.alg = .md4 → ∃ x, bytesToWords block .le = .ok x ∧ x.length = 16 ∧
        x[14]? = some cnt[0] ∧ x[15]? = some cnt[1]) ∧
      (s.alg = .sha0 → ∃ w, bytesToWords block .be = .ok w ∧ w.length = 16 ∧
        w[14]? = some cnt[1] ∧ w[15]? = some cnt[0])

/-- R30: DIGESTk in FINALIZED is four bytes of `D`, the first in bits [7:0]; of the `D` that FINAL writes, that is
`H[k]` under MD4 with DIGEST4 0, and `H[k]` with its bytes reversed under SHA-0; in another phase it is a draw. -/
def Obligations.DigestRegisters : Prop :=
  ∀ (s : State) (k : Fin 5),
    (s.phase = .finalized → digestRead k s =
      s.d[4 * k.val].setWidth 32 ||| s.d[4 * k.val + 1].setWidth 32 <<< 8 |||
        s.d[4 * k.val + 2].setWidth 32 <<< 16 ||| s.d[4 * k.val + 3].setWidth 32 <<< 24) ∧
    (s.phase = .finalized → s.d = byteRegister 20 (digestBytes .md4 s.h) →
      digestRead k s = if k.val < 4 then s.h[k] else 0) ∧
    (s.phase = .finalized → s.d = byteRegister 20 (digestBytes .sha0 s.h) →
      wordsToBytes [digestRead k s] .le = (wordsToBytes [s.h[k]] .le).reverse) ∧
    (s.phase ≠ .finalized → digestRead k s = Config.digestDraw s.epoch k)

/-! ### SHA-0 (spec/44_sha0.md) -/

/-- R212: the schedule is the block's 16 words and then 64 words by the recurrence, with no rotate. -/
def Obligations.Sha0ScheduleWithoutRotate : Prop :=
  ∀ w16 : List Word, w16.length = 16 →
    (sha0Extend 64 w16).length = 80 ∧ (sha0Extend 64 w16).take 16 = w16 ∧
    ∀ i, 16 ≤ i → i < 80 → (sha0Extend 64 w16).getD i 0 =
      (sha0Extend 64 w16).getD (i - 3) 0 ^^^ (sha0Extend 64 w16).getD (i - 8) 0 ^^^
        (sha0Extend 64 w16).getD (i - 14) 0 ^^^ (sha0Extend 64 w16).getD (i - 16) 0

/-- R213, whole: the functions and constants of the four rounds, and that the first and third function are MD4's. -/
def Obligations.Sha0RoundFunctions : Prop :=
  ∀ (i : Nat) (b c d : Word), i < 80 →
    (i < 20 → sha0F i b c d = (b &&& c) ^^^ (~~~b &&& d) ∧ sha0F i b c d = md4F b c d ∧ sha0K i = 0x5a827999) ∧
    (20 ≤ i → i < 40 → sha0F i b c d = b ^^^ c ^^^ d ∧ sha0K i = 0x6ed9eba1) ∧
    (40 ≤ i → i < 60 → sha0F i b c d = (b &&& c) ^^^ (b &&& d) ^^^ (c &&& d) ∧ sha0F i b c d = md4G b c d ∧
      sha0K i = 0x8f1bbcdc) ∧
    (60 ≤ i → sha0F i b c d = b ^^^ c ^^^ d ∧ sha0K i = 0xca62c1d6)

/-- SHA0Compress on any schedule that meets R211 and R212: 80 steps of R214, each with `T`'s sum as written there, and
the feed-forward of R215. -/
def Obligations.Sha0CompressFollowsTheSchedule : Prop :=
  ∀ (hin : Vector Word 5) (block : List Byte) (w : List Word) (lanes : Nat → Vector Word 5),
    block.length = 64 → w.length = 80 → bytesToWords block .be = .ok (w.take 16) →
    (∀ i, 16 ≤ i → i < 80 → w.getD i 0 =
      w.getD (i - 3) 0 ^^^ w.getD (i - 8) 0 ^^^ w.getD (i - 14) 0 ^^^ w.getD (i - 16) 0) →
    lanes 0 = hin →
    (∀ i, i < 80 → lanes (i + 1) =
      #v[(lanes i)[4] + w.getD i 0 + sha0K i + sha0F i (lanes i)[1] (lanes i)[2] (lanes i)[3] + rotl (lanes i)[0] 5,
        (lanes i)[0], rotl (lanes i)[1] 30, (lanes i)[2], (lanes i)[3]]) →
    ∃ hout, sha0Compress hin block = .ok hout ∧ ∀ i : Fin 5, hout[i] = hin[i] + (lanes 80)[i]
end

