-- ==== Sys2Proof/Laws/State.lean ====
section
/-! SUPPORT. What each update of the state leaves in each field, so that no later proof unfolds one. -/

namespace Sys2Proof.Machine

variable (s : State)

/-! The fields after a fault. -/

@[simp] theorem raiseFault_phase (c : FaultCode) : (raiseFault c s).phase = .faulted := by cases c <;> rfl
@[simp] theorem raiseFault_fcode (c : FaultCode) : (raiseFault c s).fcode = some c := by cases c <;> rfl
@[simp] theorem raiseFault_alg (c : FaultCode) : (raiseFault c s).alg = s.alg := by cases c <;> rfl
@[simp] theorem raiseFault_port (c : FaultCode) : (raiseFault c s).port = s.port := by cases c <;> rfl
@[simp] theorem raiseFault_replies (c : FaultCode) : (raiseFault c s).replies = s.replies := by cases c <;> rfl
@[simp] theorem raiseFault_epoch (c : FaultCode) : (raiseFault c s).epoch = s.epoch := by cases c <;> rfl
@[simp] theorem raiseFault_reservedReads (c : FaultCode) : (raiseFault c s).reservedReads = s.reservedReads := by
  cases c <;> rfl

/-! The fields after a reset. -/

@[simp] theorem resetEngine_phase : (resetEngine s).phase = .uninit := rfl
@[simp] theorem resetEngine_alg : (resetEngine s).alg = .md4 := rfl
@[simp] theorem resetEngine_fcode : (resetEngine s).fcode = none := rfl
@[simp] theorem resetEngine_fill : (resetEngine s).fill = 0 := rfl
@[simp] theorem resetEngine_port : (resetEngine s).port = s.port := rfl
@[simp] theorem resetEngine_replies : (resetEngine s).replies = s.replies := rfl
@[simp] theorem resetEngine_epoch : (resetEngine s).epoch = s.epoch + 1 := rfl
@[simp] theorem resetEngine_reservedReads : (resetEngine s).reservedReads = s.reservedReads := rfl

/-! The fields after the buffer is emptied. -/

@[simp] theorem clearBuffer_phase : (clearBuffer s).phase = s.phase := rfl
@[simp] theorem clearBuffer_alg : (clearBuffer s).alg = s.alg := rfl
@[simp] theorem clearBuffer_h : (clearBuffer s).h = s.h := rfl
@[simp] theorem clearBuffer_cnt : (clearBuffer s).cnt = s.cnt := rfl
@[simp] theorem clearBuffer_buf : (clearBuffer s).buf = Vector.replicate 64 0 := rfl
@[simp] theorem clearBuffer_fill : (clearBuffer s).fill = 0 := rfl
@[simp] theorem clearBuffer_d : (clearBuffer s).d = s.d := rfl
@[simp] theorem clearBuffer_fcode : (clearBuffer s).fcode = s.fcode := rfl
@[simp] theorem clearBuffer_port : (clearBuffer s).port = s.port := rfl
@[simp] theorem clearBuffer_replies : (clearBuffer s).replies = s.replies := rfl
@[simp] theorem clearBuffer_epoch : (clearBuffer s).epoch = s.epoch := rfl
@[simp] theorem clearBuffer_reservedReads : (clearBuffer s).reservedReads = s.reservedReads := rfl

/-! The fields after a host read. -/

variable (r : WindowReg)

@[simp] theorem hostRead_phase : (hostRead r s).phase = s.phase := rfl
@[simp] theorem hostRead_alg : (hostRead r s).alg = s.alg := rfl
@[simp] theorem hostRead_h : (hostRead r s).h = s.h := rfl
@[simp] theorem hostRead_cnt : (hostRead r s).cnt = s.cnt := rfl
@[simp] theorem hostRead_buf : (hostRead r s).buf = s.buf := rfl
@[simp] theorem hostRead_fill : (hostRead r s).fill = s.fill := rfl
@[simp] theorem hostRead_d : (hostRead r s).d = s.d := rfl
@[simp] theorem hostRead_fcode : (hostRead r s).fcode = s.fcode := rfl
@[simp] theorem hostRead_port : (hostRead r s).port = s.port := rfl
@[simp] theorem hostRead_replies : (hostRead r s).replies = s.replies ++ [readReg r s] := rfl
@[simp] theorem hostRead_epoch : (hostRead r s).epoch = s.epoch := rfl

end Sys2Proof.Machine
end

