-- ==== Sys2Proof/Laws/Ops.lean ====
section
/-! SUPPORT. What each shared operation can do, said once: the gate of a command, the packing of words, the compressors,
absorbing a byte, padding. -/

namespace Sys2Proof.Machine

/-! The gate of a command. -/

theorem runCommand_faulted {body : State → Except FaultCode State} {s : State} (h : s.phase = .faulted) :
    runCommand body s = .next s := if_pos h

theorem runCommand_ok {body : State → Except FaultCode State} {s t : State} (h : s.phase ≠ .faulted)
    (hb : body s = .ok t) : runCommand body s = .next t := by
  simp [runCommand, h, hb]

theorem runCommand_error {body : State → Except FaultCode State} {s : State} {c : FaultCode} (h : s.phase ≠ .faulted)
    (hb : body s = .error c) : runCommand body s = .next (raiseFault c s) := by
  simp [runCommand, h, hb]

/-- A command ends in one of three ways: no effect in FAULTED, its own effect, or its fault. -/
theorem runCommand_cases {body : State → Except FaultCode State} {s t : State} (h : runCommand body s = .next t) :
    (s.phase = .faulted ∧ t = s) ∨ (s.phase ≠ .faulted ∧ body s = .ok t) ∨
      ∃ c, s.phase ≠ .faulted ∧ body s = .error c ∧ t = raiseFault c s := by
  by_cases hp : s.phase = .faulted
  · rw [runCommand_faulted hp] at h
    cases h
    exact .inl ⟨hp, rfl⟩
  · cases hb : body s with
    | ok u =>
      rw [runCommand_ok hp hb] at h
      cases h
      exact .inr (.inl ⟨hp, rfl⟩)
    | error c =>
      rw [runCommand_error hp hb] at h
      cases h
      exact .inr (.inr ⟨c, hp, rfl, rfl⟩)

/-! Packing. -/

theorem bytesToWords_ok {s : List Byte} {o : ByteOrder} (h : s.length % 4 = 0) :
    bytesToWords s o = .ok (packGroups o s) := if_pos h

theorem bytesToWords_error {s : List Byte} {o : ByteOrder} (h : s.length % 4 ≠ 0) :
    bytesToWords s o = .error .bounds := if_neg h

theorem packGroups_length (o : ByteOrder) (s : List Byte) : (packGroups o s).length = s.length / 4 := by
  induction s using packGroups.induct with
  | case1 s0 s1 s2 s3 rest ih => simp only [packGroups, List.length_cons, ih]; omega
  | case2 s h =>
    match s, h with
    | [], _ => simp [packGroups]
    | [_], _ => simp [packGroups]
    | [_, _], _ => simp [packGroups]
    | [_, _, _], _ => simp [packGroups]
    | s0 :: s1 :: s2 :: s3 :: rest, h => exact absurd rfl (h s0 s1 s2 s3 rest)

@[simp] theorem unpackWord_length (o : ByteOrder) (w : Word) : (unpackWord o w).length = 4 := by cases o <;> rfl

@[simp] theorem wordsToBytes_length (ws : List Word) (o : ByteOrder) : (wordsToBytes ws o).length = 4 * ws.length := by
  induction ws with
  | nil => rfl
  | cons w ws ih =>
    simp only [wordsToBytes, List.flatMap_cons, List.length_append, unpackWord_length, List.length_cons] at ih ⊢
    omega

@[simp] theorem counterToBytes_length (cnt : Vector Word 2) : (counterToBytes cnt).length = 8 := rfl

@[simp] theorem lenField_length (a : Alg) (bs : List Byte) : (lenField a bs).length = bs.length := by
  cases a <;> simp [lenField, md4LenField, sha0LenField]

@[simp] theorem zeros_length (n : Nat) : (zeros n).length = n := by simp [zeros]

@[simp] theorem digestBytes_length (a : Alg) (h : Vector Word 5) : (digestBytes a h).length = 20 := by
  cases a <;> simp [digestBytes, md4DigestBytes, sha0DigestBytes]

/-! The compressors and the block-availability check. -/

/-- A block of 64 bytes is compressed by either algorithm. -/
theorem compressChain_of_length (a : Alg) (h : Vector Word 5) {block : List Byte} (hb : block.length = 64) :
    ∃ h', compressChain a h block = .ok h' := by
  have h4 : block.length % 4 = 0 := by omega
  cases a <;>
    simp only [compressChain, hb, if_true, md4Compress, sha0Compress, bytesToWords_ok h4, bind, Except.bind] <;>
    exact ⟨_, rfl⟩

/-- `Compress` of 64 bytes writes `H` and nothing else. -/
theorem compress_of_length {block : List Byte} (hb : block.length = 64) (s : State) :
    ∃ h', compressChain s.alg s.h block = .ok h' ∧ compress block s = .ok { s with h := h' } := by
  obtain ⟨h', hc⟩ := compressChain_of_length s.alg s.h hb
  exact ⟨h', hc, by simp [compress, hc, bind, Except.bind]⟩

/-! Absorbing a byte. -/

theorem absorbByte_room {b : Byte} {s : State} (room : s.fill.val + 1 < 64) :
    absorbByte b s = .ok { s with buf := s.buf.set s.fill b, fill := ⟨s.fill.val + 1, room⟩ } := by
  simp [absorbByte, room]

theorem absorbByte_full {b : Byte} {s : State} (full : s.fill.val = 63) :
    ∃ h', compressChain s.alg s.h (s.buf.set s.fill b).toList = .ok h' ∧
      absorbByte b s = .ok (clearBuffer { s with h := h', cnt := counterAdd 512 s.cnt }) := by
  obtain ⟨h', hc, hs⟩ := compress_of_length (block := (s.buf.set s.fill b).toList) (by simp)
    { s with buf := s.buf.set s.fill b }
  refine ⟨h', hc, ?_⟩
  simp only [absorbByte, bind, Except.bind]
  rw [dif_neg (by omega), hs]
  rfl

/-- Absorbing a byte never fails, and what it keeps. -/
theorem absorbByte_ok (b : Byte) (s : State) :
    ∃ t, absorbByte b s = .ok t ∧
      t = { s with h := t.h, cnt := t.cnt, buf := t.buf, fill := t.fill } ∧
      t.fill.val = (s.fill.val + 1) % 64 := by
  by_cases room : s.fill.val + 1 < 64
  · exact ⟨_, absorbByte_room room, rfl, (Nat.mod_eq_of_lt room).symm⟩
  · have full : s.fill.val = 63 := by omega
    obtain ⟨h', -, ht⟩ := absorbByte_full (b := b) full
    exact ⟨_, ht, rfl, by simp [full]⟩

@[simp] theorem absorbBytes_nil (s : State) : absorbBytes [] s = .ok s := rfl

theorem absorbBytes_cons {b : Byte} {bs : List Byte} {s t : State} (h : absorbByte b s = .ok t) :
    absorbBytes (b :: bs) s = absorbBytes bs t := by
  simp [absorbBytes, h, Except.bind]

/-- Absorbing bytes never fails, and what it keeps. -/
theorem absorbBytes_ok (bs : List Byte) (s : State) :
    ∃ t, absorbBytes bs s = .ok t ∧
      t = { s with h := t.h, cnt := t.cnt, buf := t.buf, fill := t.fill } ∧
      t.fill.val = (s.fill.val + bs.length) % 64 := by
  induction bs generalizing s with
  | nil => exact ⟨s, rfl, rfl, (Nat.mod_eq_of_lt s.fill.isLt).symm⟩
  | cons b bs ih =>
    obtain ⟨u, hu, hk, hf⟩ := absorbByte_ok b s
    obtain ⟨t, ht, hk', hf'⟩ := ih u
    refine ⟨t, (absorbBytes_cons hu).trans ht, ?_, ?_⟩
    · rw [hk', hk]
    · rw [hf', hf, List.length_cons]; omega

/-- Absorbing one sequence after another is absorbing both (R153). -/
theorem absorbBytes_append (as bs : List Byte) (s : State) :
    absorbBytes (as ++ bs) s = (absorbBytes as s).bind (absorbBytes bs) := by
  induction as generalizing s with
  | nil => rfl
  | cons a as ih =>
    obtain ⟨t, ht, -⟩ := absorbByte_ok a s
    simp only [List.cons_append, absorbBytes_cons ht, ih]

/-! Padding. -/

/-- `Pad` of a tail of at most 55 bytes and an 8-byte length field: one transform, and only `H` changes. -/
theorem pad_single (s : State) {l : List Byte} (hl : l.length = 8) (ht : s.fill.val < 56) :
    ∃ h1, compressChain s.alg s.h (s.buf.toList.take s.fill.val ++ [0x80] ++ zeros (55 - s.fill.val) ++ l) = .ok h1 ∧
      pad s.fill.val l s = .ok { s with h := h1 } := by
  have hp : (s.buf.toList.take s.fill.val ++ [0x80] ++ zeros (63 - s.fill.val)).take 56 =
      s.buf.toList.take s.fill.val ++ [0x80] ++ zeros (55 - s.fill.val) := by
    have h1 : (s.buf.toList.take s.fill.val ++ [(0x80 : Byte)]).length ≤ 56 := by simp; omega
    rw [List.take_append, List.take_of_length_le h1, zeros, List.take_replicate]
    congr 2
    simp
    omega
  obtain ⟨h1, hc, hs⟩ := compress_of_length
    (block := s.buf.toList.take s.fill.val ++ [0x80] ++ zeros (55 - s.fill.val) ++ l) (by simp [hl]; omega) s
  exact ⟨h1, hc, by rw [pad, if_neg (by omega), hp, hs]⟩

/-- `Pad` of a tail of 56 bytes or more and an 8-byte length field: two transforms, and only `H` changes. -/
theorem pad_double (s : State) {l : List Byte} (hl : l.length = 8) (ht : 56 ≤ s.fill.val) :
    ∃ h1 h2, compressChain s.alg s.h (s.buf.toList.take s.fill.val ++ [0x80] ++ zeros (63 - s.fill.val)) = .ok h1 ∧
      compressChain s.alg h1 (zeros 56 ++ l) = .ok h2 ∧ pad s.fill.val l s = .ok { s with h := h2 } := by
  have hf := s.fill.isLt
  obtain ⟨h1, hc1, hs1⟩ := compress_of_length
    (block := s.buf.toList.take s.fill.val ++ [0x80] ++ zeros (63 - s.fill.val)) (by simp; omega) s
  obtain ⟨h2, hc2, hs2⟩ := compress_of_length (block := zeros 56 ++ l) (by simp [hl]) { s with h := h1 }
  refine ⟨h1, h2, hc1, hc2, ?_⟩
  simp only [pad, if_pos ht, bind, Except.bind]
  rw [hs1]
  exact hs2

/-- `DoFinal` after its checks never fails: it is `Pad` on the counted tail, then the digest and the clearing. -/
theorem finalize_ok (s : State) {h' : Vector Word 5} {c : Vector Word 2}
    (hc : c = counterAdd (BitVec.ofNat 32 (8 * s.fill.val)) s.cnt)
    (hp : pad s.fill.val (lenField s.alg (counterToBytes c)) { s with cnt := c } = .ok { s with cnt := c, h := h' }) :
    finalize s = .ok { s with
      phase := .finalized, h := h', cnt := counterClear, buf := Vector.replicate 64 0, fill := 0,
      d := byteRegister 20 (digestBytes s.alg h') } := by
  subst hc
  simp only [finalize, bind, Except.bind]
  rw [hp]
  rfl

end Sys2Proof.Machine
end

