-- ==== Sys2Proof/Laws/Commands.lean ====
section
/-! SUPPORT. Each command's meaning as its procedure behind the gate, and the checks that stand before the procedures of
FEED and FINAL. -/

namespace Sys2Proof.Machine

theorem exec_nop (s : State) : exec .nop s = runCommand doNop s := rfl

theorem exec_init (a : Alg) (s : State) : exec (.init a) s = runCommand (doInit a) s := rfl

theorem exec_feed {i : Instr} (hi : isFeed i = true) (s : State) : exec i s = runCommand (doFeed (operandBytes i)) s := by
  cases i <;> first | rfl | simp [isFeed] at hi

theorem exec_final (s : State) : exec .final s = runCommand doFinal s := rfl

/-- Every command is a procedure behind the gate. -/
theorem exec_eq_runCommand (i : Instr) : ∃ body, ∀ s, exec i s = runCommand body s := by
  cases i with
  | nop => exact ⟨doNop, exec_nop⟩
  | init a => exact ⟨doInit a, exec_init a⟩
  | feed0 => exact ⟨doFeed [], exec_feed rfl⟩
  | feed1 b0 => exact ⟨doFeed [b0], exec_feed rfl⟩
  | feed2 b0 b1 => exact ⟨doFeed [b0, b1], exec_feed rfl⟩
  | feed3 b0 b1 b2 => exact ⟨doFeed [b0, b1, b2], exec_feed rfl⟩
  | final => exact ⟨doFinal, exec_final⟩

theorem doFeed_uninit {bs : List Byte} {s : State} (h : s.phase = .uninit) : doFeed bs s = .error .notInit := by
  simp [doFeed, h]

theorem doFeed_finalized {bs : List Byte} {s : State} (h : s.phase = .finalized) :
    doFeed bs s = .error .feedAfterFinal := by
  simp [doFeed, h]

theorem doFeed_absorb {bs : List Byte} {s : State} (h : s.phase = .absorb) : doFeed bs s = absorbBytes bs s := by
  simp [doFeed, h]

theorem doFinal_uninit {s : State} (h : s.phase = .uninit) : doFinal s = .error .notInit := by
  simp [doFinal, h]

theorem doFinal_finalized {s : State} (h : s.phase = .finalized) : doFinal s = .error .doubleFinal := by
  simp [doFinal, h]

theorem doFinal_absorb {s : State} (h : s.phase = .absorb) : doFinal s = finalize s := by
  simp [doFinal, h]

end Sys2Proof.Machine
end

