-- ==== Sys2Proof/Laws/Decode.lean ====
section
/-! SUPPORT. What the decoder answers on each branch of R77, said once. -/

namespace Sys2Proof

theorem decode_init {w : Word} (h : w.extractLsb' 1 31 = 0x08000000#31) :
    decode w = .ok (.init (Alg.ofBit (w.getLsbD 0))) := by
  have h0 : w ≠ 0x00000000#32 := by rintro rfl; exact absurd h (by decide)
  rw [decode, if_neg h0, if_pos h]

/-- On `OP = 2` with bits [27:26] zero, only the unused lanes decide. -/
theorem decode_op2 {w : Word} (h : w.extractLsb' 26 6 = 0b001000#6) :
    decode w = if w.extractLsb' 0 24 >>> (8 * (nField w).toNat) = 0#24 then .ok (feedForm w)
      else .error (illegalReason w) := by
  have h0 : w ≠ 0x00000000#32 := by rintro rfl; exact absurd h (by decide)
  have h1 : w.extractLsb' 1 31 ≠ 0x08000000#31 := by
    intro e
    have hb : (w.extractLsb' 26 6).getLsbD 2 = (w.extractLsb' 1 31).getLsbD 27 := by
      simp
    rw [h, e] at hb
    exact absurd hb (by decide)
  rw [decode, if_neg h0, if_neg h1, if_pos h]

theorem decode_illegal {w : Word} (h0 : w ≠ 0x00000000#32) (h1 : w.extractLsb' 1 31 ≠ 0x08000000#31)
    (h2 : w.extractLsb' 26 6 ≠ 0b001000#6) (h3 : w ≠ 0x30000000#32) : decode w = .error (illegalReason w) := by
  rw [decode, if_neg h0, if_neg h1, if_neg h2, if_neg h3]

end Sys2Proof
end

