-- ==== Sys2Proof/Laws/PerInstr.lean ====
section
/-! SUPPORT. Statements about each command as syntax, one lemma per constructor: its word belongs to the row of
spec/opcode_table.json that its constructor stands for. -/

namespace Sys2Proof

/-- The bits of a lane outside its byte are 0. -/
theorem inLane_and_high (b : Byte) (k : Nat) (m : Word) (h : ∀ i, 8 * k ≤ i → i < 8 * k + 8 → m.getLsbD i = false) :
    inLane b k &&& m = 0 := by
  apply BitVec.eq_of_getLsbD_eq
  intro i hi
  simp only [inLane, BitVec.getLsbD_and, BitVec.getLsbD_shiftLeft, BitVec.getLsbD_setWidth]
  by_cases h1 : 8 * k ≤ i
  · by_cases h2 : i < 8 * k + 8
    · simp [h i h1 h2]
    · simp [BitVec.getLsbD_of_ge b (i - 8 * k) (by omega)]
  · simp [show i < 8 * k by omega]

end Sys2Proof

namespace Sys2Proof.Laws.EncodingRow

open Sys2Proof

/-- The command's word matches its row of the table, and that row is one of the table's. -/
def Statement (i : Instr) : Prop := (opcodeRow i).matches (encode i) = true ∧ opcodeRow i ∈ opcodeTable

theorem nop : Statement .nop := by unfold Statement; decide

theorem init (a : Alg) : Statement (.init a) := by cases a <;> (unfold Statement; decide)

theorem feed0 : Statement .feed0 := by unfold Statement; decide

theorem feed1 (b0 : Byte) : Statement (.feed1 b0) := by
  refine ⟨?_, by simp [opcodeRow, opcodeTable]⟩
  simp only [opcodeRow, OpcodeRow.matches, encode, BitVec.and_or_distrib_right, beq_iff_eq]
  rw [inLane_and_high b0 0 _ (by decide)]
  decide

theorem feed2 (b0 b1 : Byte) : Statement (.feed2 b0 b1) := by
  refine ⟨?_, by simp [opcodeRow, opcodeTable]⟩
  simp only [opcodeRow, OpcodeRow.matches, encode, BitVec.and_or_distrib_right, beq_iff_eq]
  rw [inLane_and_high b0 0 _ (by decide), inLane_and_high b1 1 _ (by decide)]
  decide

theorem feed3 (b0 b1 b2 : Byte) : Statement (.feed3 b0 b1 b2) := by
  refine ⟨?_, by simp [opcodeRow, opcodeTable]⟩
  simp only [opcodeRow, OpcodeRow.matches, encode, BitVec.and_or_distrib_right, beq_iff_eq]
  rw [inLane_and_high b0 0 _ (by decide), inLane_and_high b1 1 _ (by decide), inLane_and_high b2 2 _ (by decide)]
  decide

theorem final : Statement .final := by unfold Statement; decide

end Sys2Proof.Laws.EncodingRow
end

