-- ==== Sys2Proof/Tests/Slice0.lean ====
section
/-! SUPPORT. Tests on the vectors of the spec (spec/95_test_vectors.md and the examples in the rules), and for each
statement with hypotheses a state and operands that meet them. -/

namespace Sys2Proof.Tests

open Sys2Proof Sys2Proof.Machine

/-! ### States -/

/-- The engine right after `INIT a` from reset. -/
def absorbing (a : Alg) : State := { State.reset with phase := .absorb, alg := a, h := initialChain a }

/-- `INIT a`, then the `n` bytes of 0x61 carried in the buffer, `n` at most 63. -/
def carrying (a : Alg) (n : Fin 64) : State :=
  { absorbing a with buf := byteRegister 64 (List.replicate n.val 0x61 ++ zeros 64), fill := n }

/-- `INIT a`, then the bytes of "abc" carried in the buffer. -/
def carryingAbc (a : Alg) : State :=
  { absorbing a with buf := byteRegister 64 ([0x61, 0x62, 0x63] ++ zeros 61), fill := 3 }

/-- An engine after a FINAL, with a digest of zeros. -/
def finalized (a : Alg) : State := { absorbing a with phase := .finalized }

/-- An engine whose fault is NOT_INIT. -/
def faulted : State := { State.reset with phase := .faulted, fcode := some .notInit }

/-- A state that waits for the requests `es`. -/
def waiting (es : List HostEvent) (s : State) : State := { s with port := es }

/-- The next state of an outcome. -/
def nextOf (o : Host.Outcome State Fault Refusal) : Option State :=
  match o with
  | .next t => some t
  | .fault _ => none
  | .refused _ => none

/-- STATUS after the word `w` is written to CMD. -/
def statusAfter (w : Word) (s : State) : Option Word := (nextOf (step (waiting [cmdWrite w] s))).map statusWord

/-- The digest after FINAL. -/
def finalDigest (s : State) : Option (List Byte) := (nextOf (exec .final s)).map digestOutput

/-! ### Decoding (L2.3, R79) and well-formedness -/

theorem test_decode_nop : decode 0b00000000000000000000000000000000#32 = .ok .nop := by decide

theorem test_decode_init_md4 : decode 0b00010000000000000000000000000000#32 = .ok (.init .md4) := by decide

theorem test_decode_init_sha0 : decode 0b00010000000000000000000000000001#32 = .ok (.init .sha0) := by decide

theorem test_decode_feed0 : decode 0b00100000000000000000000000000000#32 = .ok .feed0 := by decide

theorem test_decode_feed1 : decode 0b00100001000000000000000001100001#32 = .ok (.feed1 0x61) := by decide

theorem test_decode_feed2 : decode 0b00100010000000000110001001100001#32 = .ok (.feed2 0x61 0x62) := by decide

theorem test_decode_feed3 : decode 0b00100011011000110110001001100001#32 = .ok (.feed3 0x61 0x62 0x63) := by decide

theorem test_decode_final : decode 0b00110000000000000000000000000000#32 = .ok .final := by decide

theorem test_decode_illegal :
    decode 0x00000001#32 = .error .nopBits ∧ decode 0x10000002#32 = .error .initBits ∧
    decode 0x21000100#32 = .error .feedUnusedLane ∧ decode 0x24000000#32 = .error .feedReservedBits ∧
    decode 0x30000001#32 = .error .finalBits ∧ decode 0x40000000#32 = .error .reservedOpcode ∧
    decode 0xf0000000#32 = .error .reservedOpcode := by decide

theorem test_fields_of_feed :
    fieldsOf 0x23636261#32 = { op := 2, rsv := 0, n := 3, b2 := 0x63, b1 := 0x62, b0 := 0x61 } := by decide

theorem test_wellFormed_refuses_reserved_bits :
    CmdFields.wellFormed { op := 2, rsv := 1, n := 0, b2 := 0, b1 := 0, b0 := 0 } = false := by decide

theorem test_wellFormed_refuses_reserved_opcode :
    CmdFields.wellFormed { op := 4, rsv := 0, n := 0, b2 := 0, b1 := 0, b0 := 0 } = false := by decide

theorem test_wellFormed_refuses_nop_bits :
    CmdFields.wellFormed { op := 0, rsv := 0, n := 0, b2 := 0, b1 := 0, b0 := 1 } = false := by decide

theorem test_wellFormed_refuses_init_bits :
    CmdFields.wellFormed { op := 1, rsv := 0, n := 0, b2 := 0, b1 := 0, b0 := 2 } = false := by decide

theorem test_wellFormed_refuses_unused_lane :
    CmdFields.wellFormed { op := 2, rsv := 0, n := 1, b2 := 0, b1 := 1, b0 := 0 } = false := by decide

theorem test_wellFormed_refuses_final_bits :
    CmdFields.wellFormed { op := 3, rsv := 0, n := 1, b2 := 0, b1 := 0, b0 := 0 } = false := by decide

theorem test_wellFormed_accepts_feed :
    CmdFields.wellFormed { op := 2, rsv := 0, n := 1, b2 := 0, b1 := 0, b0 := 255 } = true := by decide

theorem test_source_refuses_long_feed : (SourceLine.feed [1, 2, 3, 4]).wellFormed = false := by decide

theorem test_source_refuses_wide_operand :
    (SourceLine.feed [256]).wellFormed = false ∧ (SourceLine.feeds [256]).wellFormed = false ∧
      (SourceLine.hash .md4 [256]).wellFormed = false := by decide

/-- `FEED 'a', 'b', 'c'` is 0x23636261 (R79); the lower case of the mnemonic does not matter. -/
theorem test_assemble_feed :
    (assemble ['f', 'e', 'e', 'd', ' ', '\'', 'a', '\'', ',', ' ', '9', '8', ',', '0', 'x', '6', '3']).map
      (fun is => is.map encode) = some [0x23636261#32] := by decide +kernel

/-- A 56-byte sequence takes 18 FEEDs of three bytes and one of two (R80). -/
theorem test_feeds_56 :
    feeds (List.replicate 56 0x61) = List.replicate 18 (.feed3 0x61 0x61 0x61) ++ [.feed2 0x61 0x61] := by decide

/-! ### Commands (L2.3, L2.4, L2.7, L2.8) -/

theorem test_status_in_absorb_legal :
    [0x00000000#32, 0x10000000#32, 0x10000001#32, 0x20000000#32, 0x21000061#32, 0x22006261#32, 0x23636261#32].map
      (fun w => statusAfter w (absorbing .md4)) =
    [some 0x00000001#32, some 0x00000001#32, some 0x00000005#32, some 0x00000001#32, some 0x00000101#32,
      some 0x00000201#32, some 0x00000301#32] := by decide +kernel

theorem test_status_in_absorb_illegal :
    [0x00000001#32, 0x10000002#32, 0x21000100#32, 0x24000000#32, 0x30000001#32, 0x40000000#32, 0xf0000000#32].map
      (fun w => statusAfter w (absorbing .md4)) = List.replicate 7 (some 0x00000013#32) := by decide +kernel

theorem test_status_from_reset :
    [0x00000000#32, 0x21000061#32, 0x30000000#32, 0x40000000#32, 0x10000001#32].map
      (fun w => statusAfter w State.reset) =
    [some 0x00000000#32, some 0x00000023#32, some 0x00000023#32, some 0x00000013#32, some 0x00000005#32] := by
  decide +kernel

theorem test_status_after_final :
    statusAfter 0x21000061#32 (finalized .md4) = some 0x00000043#32 ∧
    statusAfter 0x30000000#32 (finalized .sha0) = some 0x00000037#32 ∧
    statusAfter 0x10000001#32 (finalized .md4) = some 0x00000005#32 := by decide +kernel

theorem test_fault_is_sticky :
    statusAfter 0x10000000#32 { finalized .sha0 with phase := .faulted, fcode := some .doubleFinal } =
      some 0x00000037#32 := by decide +kernel

/-- `INIT MD4` writes the initial value of R180, and 0 to `H[4]`. -/
theorem test_init_md4 :
    (nextOf (exec (.init .md4) faulted)).map State.h = some faulted.h ∧
    (nextOf (exec (.init .md4) (finalized .sha0))).map (fun s => s.h.toList) =
      some [0x67452301, 0xefcdab89, 0x98badcfe, 0x10325476, 0x00000000] := by decide +kernel

/-- A FEED that crosses a block boundary (L2.8). -/
theorem test_feed3_across_block :
    (nextOf (exec (.feed3 0x61 0x61 0x62) (carrying .md4 62))).map
      (fun s => (statusWord s, s.cnt.toList, s.buf[0], s.buf[1])) =
    some (0x00000101#32, [512, 0], 0x62, 0) := by decide +kernel

/-- The last FEED of program P5: `H` after the full block. -/
theorem test_feed1_completes_block :
    (nextOf (exec (.feed1 0x61) (carrying .sha0 63))).map (fun s => (s.h.toList, s.cnt.toList, s.fill)) =
      some ([0x72e0cb80, 0xcd162b91, 0xf027889b, 0xac2ce0a9, 0x191579a6], [512, 0], 0) := by decide +kernel

/-- R145's example: two bytes complete the block of 62. -/
theorem test_feed2_completes_block :
    (nextOf (exec (.feed2 0x61 0x61) (carrying .sha0 62))).map (fun s => (s.fill, s.cnt.toList)) =
      some (0, [512, 0]) := by decide +kernel

theorem test_final_md4_abc : finalDigest (carryingAbc .md4) = some
    [0xa4, 0x48, 0x01, 0x7a, 0xaf, 0x21, 0xd8, 0x52, 0x5f, 0xc1, 0x0a, 0xe8, 0x7a, 0xa6, 0x72, 0x9d] := by
  decide +kernel

theorem test_final_sha0_abc : finalDigest (carryingAbc .sha0) = some
    [0x01, 0x64, 0xb8, 0xa9, 0x14, 0xcd, 0x2a, 0x5e, 0x74, 0xc4, 0xf7, 0xff, 0x08, 0x2c, 0x4d, 0x97, 0xf1, 0xed,
      0xf8, 0x80] := by decide +kernel

/-- 55 bytes take one final block, 56 take two (L2.7). -/
theorem test_final_md4_padding_boundary :
    finalDigest (carrying .md4 55) = some
      [0xc8, 0x89, 0xc8, 0x1d, 0xd8, 0x6c, 0x4d, 0x2e, 0x02, 0x57, 0x78, 0x94, 0x4e, 0xa0, 0x28, 0x81] ∧
    finalDigest (carrying .md4 56) = some
      [0xd5, 0xf9, 0xa9, 0xe9, 0x25, 0x70, 0x77, 0xa5, 0xf0, 0x8b, 0x0b, 0x92, 0xf3, 0x48, 0xb0, 0xad] := by
  decide +kernel

theorem test_final_sha0_empty : finalDigest (absorbing .sha0) = some
    [0xf9, 0x6c, 0xea, 0x19, 0x8a, 0xd1, 0xdd, 0x56, 0x17, 0xac, 0x08, 0x4a, 0x3d, 0x92, 0xc6, 0x10, 0x77, 0x08,
      0xc0, 0xef] := by decide +kernel

/-! ### The step, the window, the units -/

/-- `withFetchWord` puts the word where the next step performs it. -/
theorem test_withFetchWord :
    step (State.reset.withFetchWord 32 0x10000001) =
      exec (.init .sha0) { State.reset with epoch := 1 } := by rfl

/-- DIGEST0 to DIGEST4 after "abc" under SHA-0 (program P3). -/
theorem test_digest_registers :
    (nextOf (exec .final (carryingAbc .sha0))).map (fun s => (List.finRange 5).map fun k => digestRead k s) =
      some [0xa9b86401, 0x5e2acd14, 0xfff7c474, 0x974d2c08, 0x80f8edf1] := by decide +kernel

/-- A 32-bit access at the top register of the window at 0x1000 is accepted, and one just past it is not (R52). -/
theorem test_accept :
    (State.reset.accept 0x1000 (.read 0x101c 32)).port = [HostEvent.read 0x1c 32] ∧
      (State.reset.accept 0x1000 (.read 0x1020 32)).port = [] := by decide

/-- A read of STATUS gives its value to the host. -/
theorem test_read_status :
    (nextOf (step (waiting [.read 4 32] (carrying .md4 56)))).map State.replies = some [0x00003801#32] := by
  decide +kernel

/-- The carry and the wrap of L2.1. -/
theorem test_counter :
    (counterAdd 512 #v[0xfffffe00, 0x00000000]).toList = [0x00000000, 0x00000001] ∧
    (counterAdd 512 #v[0xffffffff, 0xffffffff]).toList = [0x000001ff, 0x00000000] ∧
    counterToBytes #v[0x12345678, 0x9abcdef0] = [0x78, 0x56, 0x34, 0x12, 0xf0, 0xde, 0xbc, 0x9a] := by decide +kernel

/-- The first rotate of R187's example. -/
theorem test_rotl : rotl 0x0000007f 3 = 0x000003f8 := by decide

/-- The rows of L2.2. -/
theorem test_word_packing :
    bytesToWords [0x01, 0x02, 0x03, 0x04, 0x80, 0x00, 0x00, 0xff] .le = .ok [0x04030201, 0xff000080] ∧
    bytesToWords [0x01, 0x02, 0x03, 0x04, 0x80, 0x00, 0x00, 0xff] .be = .ok [0x01020304, 0x800000ff] ∧
    wordsToBytes [0x67452301] .be = [0x67, 0x45, 0x23, 0x01] ∧
    bytesToWords [1, 2, 3] .le = .error .bounds := by decide +kernel

/-- The example of R187. -/
theorem test_md4_compress_zeros :
    (md4Compress md4Iv (zeros 64)).toOption.map (fun h => h.toList) =
      some [0x015155ef, 0x2e5f67ab, 0x3681c98d, 0x7447ab15] := by decide +kernel

/-- The example of R215. -/
theorem test_sha0_compress_zeros :
    (sha0Compress sha0Iv (zeros 64)).toOption.map (fun h => h.toList) =
      some [0x92b404e5, 0x56588ced, 0x6c1acd4e, 0xbf053f68, 0x09f73a93] := by decide +kernel

/-! ### Witnesses: the hypotheses of the statements can be met, at the edges of their clauses -/

theorem witness_EncodeOfDecode : decode 0x2300ff61#32 = .ok (.feed3 0x61 0xff 0x00) := by decide

theorem witness_DecodeIsTotalAndPartitions :
    (0x10000001#32).extractLsb' 1 31 = 0x08000000#31 ∧
    ((0x2100007f#32).extractLsb' 26 6 = 0b001000#6 ∧
      (0x2100007f#32).extractLsb' 0 24 >>> (8 * ((0x2100007f#32).extractLsb' 24 2).toNat) = 0#24) ∧
    ((0x21000100#32).extractLsb' 26 6 = 0b001000#6 ∧
      (0x21000100#32).extractLsb' 0 24 >>> (8 * ((0x21000100#32).extractLsb' 24 2).toNat) ≠ 0#24) ∧
    ((0x24000000#32) ≠ 0x00000000#32 ∧ (0x24000000#32).extractLsb' 1 31 ≠ 0x08000000#31 ∧
      (0x24000000#32).extractLsb' 26 6 ≠ 0b001000#6 ∧ (0x24000000#32) ≠ 0x30000000#32) := by decide

theorem witness_IllegalWordsAndTheirFault :
    (decode 0x40000000#32 = .error .reservedOpcode ∧ (absorbing .md4).phase ≠ .faulted) ∧
    (decode 0x40000000#32 = .error .reservedOpcode ∧ faulted.phase = .faulted) := by decide

theorem witness_AssemblerLinesAndWords : 3 < [0, 0, 0, 0].length ∧ ∃ b ∈ [0, 256], 255 < b := by decide

theorem witness_FeedsExpansion :
    (feeds [1, 2, 3, 4])[0]? = some (.feed3 1 2 3) ∧ 0 + 1 < (feeds [1, 2, 3, 4]).length ∧
      Instr.feed1 4 ∈ feeds [1, 2, 3, 4] := by decide

theorem witness_StepRunsDecodedCommand :
    (waiting [cmdWrite 0x23636261#32] State.reset).port = cmdWrite 0x23636261#32 :: [] ∧
      decode 0x23636261#32 = .ok (.feed3 0x61 0x62 0x63) := by decide

theorem witness_StepOnIllegalWordFaults :
    (waiting [cmdWrite 0x00000001#32] State.reset).phase ≠ .faulted ∧
    (waiting [cmdWrite 0x00000001#32] State.reset).port = cmdWrite 0x00000001#32 :: [] ∧
      decode 0x00000001#32 = .error .nopBits := by decide

theorem witness_FaultedIgnoresEveryCommand :
    ((waiting [cmdWrite 0x10000000#32] faulted).phase = .faulted ∧
      (waiting [cmdWrite 0x10000000#32] faulted).port = cmdWrite 0x10000000#32 :: []) ∧
    faulted.phase = .faulted ∧ step faulted = .next faulted ∧ faulted.port.head? ≠ some .reset :=
  ⟨by decide, rfl, rfl, by decide⟩

theorem witness_RequestsTakeEffectInOrder :
    step (waiting [cmdWrite 0#32, .reset] State.reset) =
      .next (waiting [.reset] { State.reset with epoch := 1 }) := by rfl

theorem witness_ReadOnlyWritesHaveNoEffect :
    (28 : Fin 32) ≠ 0 ∧ (28 : Fin 32).val % 4 = 0 ∧
      (waiting [.write 28 32 5#32] State.reset).port = HostEvent.write 28 32 5#32 :: [] := by decide

theorem witness_ReadsHaveNoSideEffect :
    ((waiting [.read 28 32] State.reset).port = HostEvent.read 28 32 :: [] ∧ windowReg 28 = some .reserved) ∧
    ((waiting [.read 8 32] State.reset).port = HostEvent.read 8 32 :: [] ∧ windowReg 8 = some (.digest 0)) ∧
    (step State.reset = .next State.reset ∧ WindowReg.status ≠ .reserved ∧
      State.reset.port.head? ≠ some .reset ∧ ∀ w, State.reset.port.head? ≠ some (cmdWrite w)) :=
  ⟨by decide, by decide, rfl, by decide, by decide, fun _ h => by cases h⟩

theorem witness_OnlyAlignedWordAccessesHaveAMeaning :
    ((waiting [.write 0 32 0#32] State.reset).port = HostEvent.write 0 32 0#32 :: [] ∧ (0 : Fin 32).val % 4 = 0) ∧
    ((waiting [.read 31 32] State.reset).port = HostEvent.read 31 32 :: [] ∧ (31 : Fin 32).val % 4 ≠ 0) ∧
    ((waiting [.read 1 16] State.reset).port = HostEvent.read 1 16 :: [] ∧ 16 ≠ 32) := by decide

theorem witness_WindowIsAtEngineBase :
    (0xfff < 0x1000 ∨ 0x1000 + 32 ≤ 0xfff) ∧ (0x1020 < 0x1000 ∨ 0x1000 + 32 ≤ 0x1020) := by decide

theorem witness_InstancesShareNoState :
    stepInstance 1 [absorbing .md4, State.reset] = .next [absorbing .md4, State.reset] ∧ (0 : Nat) ≠ 1 ∧
      [absorbing .md4, State.reset][1]? = some State.reset ∧ step State.reset = .next State.reset :=
  ⟨rfl, by decide, rfl, rfl⟩

theorem witness_ResetFromAnyState : (waiting [.reset] faulted).port = HostEvent.reset :: [] := by decide

/-- Another engine in UNINIT, with other values in `H`, `CNT`, `Buf` and `D`, that waits for the same requests. -/
def otherReset (es : List HostEvent) : State :=
  { waiting es State.reset with h := Vector.replicate 5 7, d := Vector.replicate 20 9 }

theorem witness_UnspecifiedResetValuesUnobservable :
    ((waiting [.read 4 32] State.reset).phase = .uninit ∧
      AgreeOffData (waiting [.read 4 32] State.reset) (otherReset [.read 4 32]) ∧
      ∃ t, runSteps 1 (waiting [.read 4 32] State.reset) = .next t) ∧
    (AgreeOffData (waiting [.read 4 8] State.reset) (otherReset [.read 4 8]) ∧
      runSteps 1 (waiting [.read 4 8] State.reset) = .refused .accessWidth) :=
  ⟨⟨rfl, rfl, _, rfl⟩, rfl, rfl⟩

theorem witness_FaultsArePrecise :
    FaultCode.illegalCmd ≠ .bounds ∧ performCommand 0x30000000#32 (finalized .md4) =
      .next { finalized .md4 with phase := .faulted, fcode := some .doubleFinal } ∧
    (finalized .md4).phase ≠ .faulted := ⟨by decide, rfl, by decide⟩

theorem witness_PhaseFaults :
    (isFeed .feed0 = true ∧ State.reset.phase = .uninit) ∧
    (isFeed (.feed3 1 2 3) = true ∧ (finalized .md4).phase = .finalized) := by decide

theorem witness_BoundsIsUnreachable :
    (zeros 63).length ≠ 64 ∧
    step { faulted with fcode := some .bounds } = .next { faulted with fcode := some .bounds } :=
  ⟨by decide, rfl⟩

theorem witness_CounterWrapIsNoFault : (carrying .md4 63).phase = .absorb := by decide

theorem witness_PhaseCommandMatrix :
    faulted.phase = .faulted ∧ (finalized .md4).phase ≠ .faulted ∧ (isFeed .feed0 = true ∧
      (absorbing .md4).phase = .absorb) ∧ faultOf State.reset.phase .final = some .notInit ∧
    (decode 0xffffffff#32 = .error .reservedOpcode ∧ State.reset.phase ≠ .faulted) := by decide

theorem witness_NoFaultIffProtocolKept :
    Safe State.reset ∧ runCommands [.init .md4, .nop] State.reset = .next (absorbing .md4) ∧
    runCommands [.feed0] State.reset = .next faulted := ⟨by unfold Safe; decide, rfl, rfl⟩

theorem witness_PhaseInvariantKept :
    Inv (waiting [cmdWrite 0x22006261#32] (absorbing .md4)) ∧
    (∃ t, step (waiting [cmdWrite 0x22006261#32] (absorbing .md4)) = .next t ∧ t.fill = 2) ∧
    Inv State.reset ∧ step State.reset = .next State.reset :=
  ⟨⟨fun i _ => by simp [waiting, absorbing, State.reset], rfl, fun _ => rfl⟩, ⟨_, rfl, rfl⟩, ⟨rfl, rfl⟩, rfl⟩

theorem witness_OnlyInitWritesAlg :
    ∃ t, step (waiting [cmdWrite 0x10000001#32] State.reset) = .next t ∧ t.alg ≠ State.reset.alg :=
  ⟨_, rfl, by decide⟩

theorem witness_OnlyFinalWritesDigest :
    (nextOf (step (waiting [cmdWrite 0x30000000#32] (absorbing .md4)))).map
      (fun t => decide (t.d = (absorbing .md4).d)) = some false := by decide +kernel

theorem witness_OnlyInitAndCompressWriteChain :
    (nextOf (step (waiting [cmdWrite 0x21000061#32] (carrying .md4 63)))).map
      (fun t => decide (t.h = (carrying .md4 63).h)) = some false := by decide +kernel

theorem witness_InitSetsTheInitialState :
    (finalized .sha0).phase ≠ .faulted ∧ State.reset.phase ≠ .faulted ∧ (carrying .md4 63).phase ≠ .faulted := by decide

theorem witness_FeedFillsTheBuffer :
    (isFeed .feed0 = true ∧ (carrying .md4 63).fill.val + (operandBytes .feed0).length < 64) ∧
    (isFeed (.feed1 5) = true ∧ (carrying .md4 62).fill.val + (operandBytes (.feed1 5)).length < 64) ∧
    (isFeed (.feed2 5 6) = true ∧ (carrying .md4 61).fill.val + (operandBytes (.feed2 5 6)).length < 64) ∧
    (isFeed (.feed3 5 6 7) = true ∧ (carrying .md4 60).fill.val + (operandBytes (.feed3 5 6 7)).length < 64) ∧
    (carrying .md4 60).phase = .absorb := by decide

theorem witness_FeedCompressesAFullBlock :
    (isFeed (.feed1 5) = true ∧ 64 ≤ (carrying .md4 63).fill.val + (operandBytes (.feed1 5)).length) ∧
    (isFeed (.feed2 5 6) = true ∧ 64 ≤ (carrying .md4 62).fill.val + (operandBytes (.feed2 5 6)).length) ∧
    (isFeed (.feed3 5 6 7) = true ∧ 64 ≤ (carrying .md4 61).fill.val + (operandBytes (.feed3 5 6 7)).length) ∧
    (carrying .md4 61).phase = .absorb := by decide

theorem witness_CompressRunsTheSelectedTransform :
    (zeros 63).length ≠ 64 ∧ ((zeros 64).length = 64 ∧ (absorbing .md4).alg = .md4) ∧
    ((zeros 64).length = 64 ∧ (absorbing .sha0).alg = .sha0) := by decide

theorem witness_FinalWritesTheDigest : (carrying .sha0 63).phase = .absorb := by decide

theorem witness_PaddingBoundary :
    (finalBlocks (carrying .md4 55)).length = 1 ∧ (finalBlocks (carrying .md4 56)).length = 2 := by decide +kernel

theorem witness_HashComputesTheReference : Safe (carrying .sha0 5) := by unfold Safe; decide

theorem witness_StreamingEquivalence :
    Safe State.reset ∧ Safe (finalized .md4) ∧
    (∀ i ∈ [Instr.feed1 1, .nop, .feed2 2 3], isFeedOrNop i = true) ∧
    (∀ i ∈ [Instr.feed3 1 2 3, .feed0], isFeedOrNop i = true) ∧
    absorbedBytes [.feed1 1, .nop, .feed2 2 3] = absorbedBytes [.feed3 1 2 3, .feed0] :=
  ⟨by unfold Safe; decide, by unfold Safe; decide, by decide, by decide, by decide⟩

theorem witness_ReuseReproducesTheDigest :
    Safe State.reset ∧ (∀ i ∈ [Instr.feed1 1], isFeedOrNop i = true) ∧
    (nextOf (runCommands ([.init .md4] ++ [.feed1 1] ++ [.final]) State.reset)).isSome = true :=
  ⟨by unfold Safe; decide, by decide, by decide +kernel⟩

theorem witness_DigestLengthIsFixed :
    Safe State.reset ∧ (nextOf (runCommands (hashCommands .sha0 []) State.reset)).isSome = true :=
  ⟨by unfold Safe; decide, by decide +kernel⟩

theorem witness_CounterCountsAbsorbedBits :
    Safe State.reset ∧ (∀ i ∈ [Instr.nop], isFeedOrNop i = true) ∧
    runCommands ([.init .md4] ++ [.nop]) State.reset = .next (absorbing .md4) :=
  ⟨by unfold Safe; decide, by decide, rfl⟩

theorem witness_PortRunsCommandsInOrder : runCommands [.init .md4, .nop] State.reset = .next (absorbing .md4) := by rfl

theorem witness_BytesToWordsFormulas : (zeros 63).length % 4 ≠ 0 ∧ (zeros 64).length % 4 = 0 := by decide

theorem witness_WordPackingInverse :
    bytesToWords [1, 2, 3, 4] .be = .ok [0x01020304] ∧ bytesToWords [1, 2, 3, 4] .le = .ok [0x04030201] := by decide

theorem witness_RotateLeftMovesEachBit : (0 < 1 ∧ 1 < 32) ∧ (0 < 31 ∧ 31 < 32) := by decide

theorem witness_LengthFieldWords :
    ((carrying .md4 55).alg = .md4 ∧
      #v[440, 0] = counterAdd (BitVec.ofNat 32 (8 * (carrying .md4 55).fill.val)) (carrying .md4 55).cnt) ∧
    ((carrying .sha0 56).alg = .sha0 ∧
      #v[448, 0] = counterAdd (BitVec.ofNat 32 (8 * (carrying .sha0 56).fill.val)) (carrying .sha0 56).cnt) := by
  decide +kernel

theorem witness_Md4FunctionsBitwise : 31 < 32 := by decide

theorem witness_Md4CompressFollowsTheTable :
    (zeros 64).length = 64 ∧ bytesToWords (zeros 64) .le = .ok (List.replicate 16 0) := by decide +kernel

theorem witness_DigestRegisters :
    (finalized .md4).phase = .finalized ∧ State.reset.phase ≠ .finalized ∧
    (nextOf (exec .final (absorbing .md4))).map (fun s => decide (s.d = byteRegister 20 (digestBytes .md4 s.h))) =
      some true ∧
    (nextOf (exec .final (absorbing .sha0))).map (fun s => decide (s.d = byteRegister 20 (digestBytes .sha0 s.h))) =
      some true := by decide +kernel

theorem witness_Sha0ScheduleWithoutRotate :
    (List.replicate 16 (1 : Word)).length = 16 ∧ 16 ≤ 16 ∧ 79 < 80 := by decide

theorem witness_Sha0RoundFunctions :
    (0 < 20 ∧ 19 < 20) ∧ (20 ≤ 20 ∧ 39 < 40) ∧ (40 ≤ 40 ∧ 59 < 60) ∧ (60 ≤ 60 ∧ 79 < 80) := by decide

/-- Lanes that meet R214 at every step, from zero lanes and a schedule of zeros. -/
def zeroLanes : Nat → Vector Word 5
  | 0 => Vector.replicate 5 0
  | i + 1 =>
    #v[(zeroLanes i)[4] + (List.replicate 80 (0 : Word)).getD i 0 + sha0K i +
        sha0F i (zeroLanes i)[1] (zeroLanes i)[2] (zeroLanes i)[3] + rotl (zeroLanes i)[0] 5,
      (zeroLanes i)[0], rotl (zeroLanes i)[1] 30, (zeroLanes i)[2], (zeroLanes i)[3]]

theorem witness_Sha0CompressFollowsTheSchedule :
    (zeros 64).length = 64 ∧ (List.replicate 80 (0 : Word)).length = 80 ∧
    bytesToWords (zeros 64) .be = .ok ((List.replicate 80 (0 : Word)).take 16) ∧
    (∀ i, 16 ≤ i → i < 80 → (List.replicate 80 (0 : Word)).getD i 0 =
      (List.replicate 80 (0 : Word)).getD (i - 3) 0 ^^^ (List.replicate 80 (0 : Word)).getD (i - 8) 0 ^^^
        (List.replicate 80 (0 : Word)).getD (i - 14) 0 ^^^ (List.replicate 80 (0 : Word)).getD (i - 16) 0) ∧
    zeroLanes 0 = Vector.replicate 5 0 ∧
    (∀ i, i < 80 → zeroLanes (i + 1) =
      #v[(zeroLanes i)[4] + (List.replicate 80 (0 : Word)).getD i 0 + sha0K i +
          sha0F i (zeroLanes i)[1] (zeroLanes i)[2] (zeroLanes i)[3] + rotl (zeroLanes i)[0] 5,
        (zeroLanes i)[0], rotl (zeroLanes i)[1] 30, (zeroLanes i)[2], (zeroLanes i)[3]]) := by
  refine ⟨by decide, by decide, by decide +kernel, ?_, rfl, fun _ _ => rfl⟩
  have h : ∀ k, (List.replicate 80 (0 : Word)).getD k 0 = 0 := fun k => by
    rw [List.getD_eq_getElem?_getD, List.getElem?_replicate]
    split <;> rfl
  intro i _ _
  simp only [h]
  decide

end Sys2Proof.Tests
end

/-! ### Proofs: the rotate of a word (spec/00_scope.md R8)

The rotate is the library's `BitVec.rotateLeft` for the amounts R8 allows; its value as a number is R8's formula. -/

namespace Sys2Proof.Machine

theorem rotl_eq_rotateLeft (x : Word) {n : Nat} (hn : n < 32) : rotl x n = x.rotateLeft n :=
  (BitVec.rotateLeft_eq_rotateLeftAux_of_lt hn).symm

/-- The right shift already fits in a word, so R8's `mod 2^32` only cuts the left shift. -/
theorem toNat_rotl (x : Word) (n : Nat) :
    (rotl x n).toNat = (x.toNat * 2 ^ n ||| x.toNat / 2 ^ (32 - n)) % 2 ^ 32 := by
  have hlow : x.toNat / 2 ^ (32 - n) < 2 ^ 32 := (Nat.div_le_self ..).trans_lt x.isLt
  rw [Nat.or_mod_two_pow, Nat.mod_eq_of_lt hlow]
  simp [rotl, Nat.shiftLeft_eq, Nat.shiftRight_eq_div_pow]

/-- A bit stays below the top and moves up by `n`, or passes it and comes back among the low `n` bits. -/
theorem getLsbD_rotl_add_mod (x : Word) {n i : Nat} (hn : n < 32) (hi : i < 32) :
    (rotl x n).getLsbD ((i + n) % 32) = x.getLsbD i := by
  rw [rotl_eq_rotateLeft x hn, BitVec.getLsbD_rotateLeft_of_le hn]
  rcases Nat.lt_or_ge (i + n) 32 with hstay | hwrap
  · simp [Nat.mod_eq_of_lt hstay, hstay]
  · have hbit : (i + n) % 32 = i + n - 32 := by omega
    have hlow : i + n - 32 < n := by omega
    have hback : 32 - n + (i + n - 32) = i := by omega
    simp [hbit, hlow, hback]

/-- Settles O58: R8's formula by its two shifts, and each bit by whether it passes the top of the word. -/
theorem rotateLeftMovesEachBit : Obligations.RotateLeftMovesEachBit :=
  fun x n _ hn => ⟨toNat_rotl x n, fun _ hi => getLsbD_rotl_add_mod x hn hi⟩

end Sys2Proof.Machine

/-! ### Proofs: what one step can do, said once (spec/20_memory.md R54, R55, R59, spec/42_streaming.md R140 to R142)

A step performs the oldest request, and a request written to CMD performs the command its word decodes to. The lemmas of
this part say what each of these functions answers; a claim about every step is then a case split over the effects. -/

namespace Sys2Proof.Machine

/-! The commands, by the phase. -/

/-- What INIT leaves in the state (R144). -/
def initState (a : Alg) (s : State) : State :=
  clearBuffer { s with alg := a, h := initialChain a, cnt := counterClear, phase := .absorb }

/-- What FINAL leaves in the state, with `h` the chaining value after the padding (R149). -/
def finalState (h : Vector Word 5) (s : State) : State :=
  { s with
    phase := .finalized
    h := h
    cnt := counterClear
    buf := Vector.replicate 64 0
    fill := 0
    d := byteRegister 20 (digestBytes s.alg h) }

/-- The faults of the matrix of R142, by phase. -/
theorem faultOf_cases {p : Phase} {i : Instr} {c : FaultCode} (h : faultOf p i = some c) :
    (p = .uninit ∧ (isFeed i = true ∨ i = .final) ∧ c = .notInit) ∨
      (p = .finalized ∧ isFeed i = true ∧ c = .feedAfterFinal) ∨ (p = .finalized ∧ i = .final ∧ c = .doubleFinal) := by
  cases p <;> cases i <;> simp_all [faultOf, isFeed]

/-- A FEED or FINAL that raises no fault meets the phase ABSORB. -/
theorem eq_absorb_of_faultOf_none {p : Phase} {i : Instr} (hi : isFeed i = true ∨ i = .final) (hp : p ≠ .faulted)
    (h : faultOf p i = none) : p = .absorb := by
  cases p <;> cases i <;> simp_all [faultOf, isFeed]

theorem exec_of_faulted {s : State} (hs : s.phase = .faulted) (i : Instr) : exec i s = .next s := by
  obtain ⟨body, hbody⟩ := exec_eq_runCommand i
  rw [hbody, runCommand_faulted hs]

/-- NOP passes the gate of FAULTED and does nothing behind it. -/
theorem exec_nop_eq (s : State) : exec .nop s = .next s := by
  by_cases hs : s.phase = .faulted
  · exact exec_of_faulted hs .nop
  · exact runCommand_ok hs rfl

theorem exec_init_eq {s : State} (hs : s.phase ≠ .faulted) (a : Alg) : exec (.init a) s = .next (initState a s) :=
  runCommand_ok (body := doInit a) hs rfl

theorem exec_feed_eq {i : Instr} {s t : State} (hi : isFeed i = true) (hs : s.phase = .absorb)
    (ht : absorbBytes (operandBytes i) s = .ok t) : exec i s = .next t := by
  rw [exec_feed hi]
  exact runCommand_ok (by simp [hs]) ((doFeed_absorb hs).trans ht)

/-- FEED keeps all but `H`, the counter, the buffer and FILL (R145). -/
theorem absorbBytes_frame {bs : List Byte} {s t : State} (ht : absorbBytes bs s = .ok t) :
    t = { s with h := t.h, cnt := t.cnt, buf := t.buf, fill := t.fill } := by
  obtain ⟨u, hu, hkeep, -⟩ := absorbBytes_ok bs s
  cases hu.symm.trans ht
  exact hkeep

theorem exec_final_eq {s t : State} (hs : s.phase = .absorb) (ht : finalize s = .ok t) : exec .final s = .next t :=
  runCommand_ok (by simp [hs]) ((doFinal_absorb hs).trans ht)

/-- A command that the phase does not admit raises the fault of the matrix and does nothing else (R142, R240). -/
theorem exec_of_faultOf {i : Instr} {s : State} {c : FaultCode} (h : faultOf s.phase i = some c) :
    exec i s = .next { s with phase := .faulted, fcode := some c } := by
  obtain ⟨hp, hi | rfl, rfl⟩ | ⟨hp, hi, rfl⟩ | ⟨hp, rfl, rfl⟩ := faultOf_cases h
  · rw [exec_feed hi]
    exact runCommand_error (by simp [hp]) (doFeed_uninit hp)
  · exact runCommand_error (by simp [hp]) (doFinal_uninit hp)
  · rw [exec_feed hi]
    exact runCommand_error (by simp [hp]) (doFeed_finalized hp)
  · exact runCommand_error (by simp [hp]) (doFinal_finalized hp)

/-- MD4's transform keeps `H[4]` (R147). -/
theorem compressChain_md4_spare {h h' : Vector Word 5} {block : List Byte} (hc : compressChain .md4 h block = .ok h') :
    h'[4] = h[4] := by
  unfold compressChain at hc
  split at hc
  · cases ho : md4Compress #v[h[0], h[1], h[2], h[3]] block with
    | error c => simp [ho, bind, Except.bind] at hc
    | ok o =>
      simp only [ho, bind, Except.bind, Except.ok.injEq] at hc
      rw [← hc]
      rfl
  · cases hc

theorem chainBlocks_nil (a : Alg) (h : Vector Word 5) : chainBlocks a h [] = .ok h := rfl

theorem chainBlocks_cons {a : Alg} {h h1 : Vector Word 5} {block : List Byte} (hc : compressChain a h block = .ok h1)
    (blocks : List (List Byte)) : chainBlocks a h (block :: blocks) = chainBlocks a h1 blocks := by
  simp [chainBlocks, hc, bind, Except.bind]

theorem chainBlocks_md4_spare {blocks : List (List Byte)} {h h' : Vector Word 5}
    (hc : chainBlocks .md4 h blocks = .ok h') : h'[4] = h[4] := by
  induction blocks generalizing h with
  | nil =>
    cases hc
    rfl
  | cons block blocks ih =>
    cases h1 : compressChain .md4 h block with
    | error c => simp [chainBlocks, h1, bind, Except.bind] at hc
    | ok h1' =>
      rw [chainBlocks_cons h1] at hc
      exact (ih hc).trans (compressChain_md4_spare h1)

theorem finalBlocks_single {s : State} (ht : s.fill.val < 56) :
    finalBlocks s = [s.buf.toList.take s.fill.val ++ [0x80] ++ zeros (55 - s.fill.val) ++
      lenField s.alg (counterToBytes (counterAdd (BitVec.ofNat 32 (8 * s.fill.val)) s.cnt))] :=
  if_pos (Nat.le_of_lt_succ ht)

theorem finalBlocks_double {s : State} (ht : 56 ≤ s.fill.val) :
    finalBlocks s = [s.buf.toList.take s.fill.val ++ [0x80] ++ zeros (63 - s.fill.val),
      zeros 56 ++ lenField s.alg (counterToBytes (counterAdd (BitVec.ofNat 32 (8 * s.fill.val)) s.cnt))] :=
  if_neg (Nat.not_le_of_lt ht)

/-- FINAL past its checks never fails, and its chaining value is that of `finalBlocks` (R149 to R151). -/
theorem finalize_eq_finalState (s : State) :
    ∃ h, chainBlocks s.alg s.h (finalBlocks s) = .ok h ∧ finalize s = .ok (finalState h s) := by
  obtain ⟨c, hc⟩ : ∃ c, c = counterAdd (BitVec.ofNat 32 (8 * s.fill.val)) s.cnt := ⟨_, rfl⟩
  have hl : (lenField s.alg (counterToBytes c)).length = 8 := by simp
  rcases Nat.lt_or_ge s.fill.val 56 with ht | ht
  · obtain ⟨h, hblock, hp⟩ := pad_single { s with cnt := c } hl ht
    refine ⟨h, ?_, finalize_ok s hc hp⟩
    rw [finalBlocks_single ht, ← hc, chainBlocks_cons hblock, chainBlocks_nil]
  · obtain ⟨h1, h, hblock1, hblock2, hp⟩ := pad_double { s with cnt := c } hl ht
    refine ⟨h, ?_, finalize_ok s hc hp⟩
    rw [finalBlocks_double ht, ← hc, chainBlocks_cons hblock1, chainBlocks_cons hblock2, chainBlocks_nil]

/-! The effects of a word written to CMD, and of a step. -/

/-- What a word written to CMD can do to the engine: the matrix of R142, read as a relation. -/
inductive CommandEffect (w : Word) (s : State) : State → Prop
  /-- NOP, and every word in FAULTED. -/
  | noEffect : CommandEffect w s s
  /-- An illegal word. -/
  | illegal : s.phase ≠ .faulted → CommandEffect w s { s with phase := .faulted, fcode := some .illegalCmd }
  /-- A command that the phase does not admit. -/
  | fault (i : Instr) (c : FaultCode) :
      faultOf s.phase i = some c → CommandEffect w s { s with phase := .faulted, fcode := some c }
  | init (a : Alg) : s.phase ≠ .faulted → decode w = .ok (.init a) → CommandEffect w s (initState a s)
  | feed (i : Instr) (t : State) :
      s.phase = .absorb → decode w = .ok i → isFeed i = true → absorbBytes (operandBytes i) s = .ok t →
        CommandEffect w s t
  | final (h : Vector Word 5) :
      s.phase = .absorb → decode w = .ok .final → chainBlocks s.alg s.h (finalBlocks s) = .ok h →
        CommandEffect w s (finalState h s)

/-- Every word has one of the effects. -/
theorem performCommand_effect (w : Word) (s : State) : ∃ t, performCommand w s = .next t ∧ CommandEffect w s t := by
  unfold performCommand
  by_cases hs : s.phase = .faulted
  · cases decode w with
    | ok i => exact ⟨s, exec_of_faulted hs i, .noEffect⟩
    | error e => exact ⟨s, runCommand_faulted hs, .noEffect⟩
  cases hd : decode w with
  | error e => exact ⟨_, runCommand_error hs rfl, .illegal hs⟩
  | ok i =>
    cases hf : faultOf s.phase i with
    | some c => exact ⟨_, exec_of_faultOf hf, .fault i c hf⟩
    | none =>
      have hfeed (hi : isFeed i = true) : ∃ t, exec i s = .next t ∧ CommandEffect w s t := by
        have hp := eq_absorb_of_faultOf_none (.inl hi) hs hf
        obtain ⟨t, ht, -⟩ := absorbBytes_ok (operandBytes i) s
        exact ⟨t, exec_feed_eq hi hp ht, .feed i t hp hd hi ht⟩
      cases i with
      | nop => exact ⟨s, exec_nop_eq s, .noEffect⟩
      | init a => exact ⟨_, exec_init_eq hs a, .init a hs hd⟩
      | feed0 | feed1 | feed2 | feed3 => exact hfeed rfl
      | final =>
        have hp := eq_absorb_of_faultOf_none (.inr rfl) hs hf
        obtain ⟨h, hchain, ht⟩ := finalize_eq_finalState s
        exact ⟨_, exec_final_eq hp ht, .final h hp hd hchain⟩

/-- Only the access at offset 0 reaches CMD (R52, R53). -/
theorem eq_cmdWrite_of_accessTarget {offset : Fin 32} {width : Nat} (h : accessTarget offset width = .ok .cmd)
    (w : Word) : HostEvent.write offset width w = cmdWrite w := by
  have hoffset : ∀ o : Fin 32, windowReg o = some .cmd → o = 0 := by decide
  unfold accessTarget at h
  split at h
  next hwidth =>
    split at h
    next r hr =>
      cases h
      rw [hoffset offset hr, hwidth, cmdWrite]
    next => cases h
  next => cases h

/-- A write to a read-only register has no effect; a write to CMD has the effect of its word, in the next epoch. -/
theorem performEvent_write_effect {offset : Fin 32} {width : Nat} {w : Word} {s t : State}
    (h : performEvent (.write offset width w) s = .next t) :
    t = s ∨ (HostEvent.write offset width w = cmdWrite w ∧ CommandEffect w { s with epoch := s.epoch + 1 } t) := by
  cases ha : accessTarget offset width with
  | error why => simp [performEvent, ha] at h
  | ok r =>
    simp only [performEvent, ha, hostWrite] at h
    cases r with
    | cmd =>
      obtain ⟨u, hu, heffect⟩ := performCommand_effect w { s with epoch := s.epoch + 1 }
      cases h.symm.trans hu
      exact .inr ⟨eq_cmdWrite_of_accessTarget ha w, heffect⟩
    | status | digest | reserved =>
      cases h
      exact .inl rfl

theorem performEvent_read_effect {offset : Fin 32} {width : Nat} {s t : State}
    (h : performEvent (.read offset width) s = .next t) : ∃ r, t = hostRead r s := by
  cases ha : accessTarget offset width with
  | error why => simp [performEvent, ha] at h
  | ok r =>
    simp only [performEvent, ha] at h
    cases h
    exact ⟨r, rfl⟩

/-- What a step can do: the request at the head of the port leaves it and is performed. -/
inductive StepEffect (s : State) : State → Prop
  | reset : s.port.head? = some .reset → StepEffect s (resetEngine { s with port := s.port.tail })
  /-- No request waits, or the request writes to a read-only register. -/
  | idle : StepEffect s { s with port := s.port.tail }
  | read (r : WindowReg) : StepEffect s (hostRead r { s with port := s.port.tail })
  | command (w : Word) (t : State) :
      s.port.head? = some (cmdWrite w) →
        CommandEffect w { s with port := s.port.tail, epoch := s.epoch + 1 } t → StepEffect s t

/-- Every step that answers a state has one of the effects. -/
theorem step_effect {s t : State} (h : step s = .next t) : StepEffect s t := by
  unfold step performNext at h
  split at h
  next hport =>
    cases h
    have hs : { s with port := s.port.tail } = s := by rw [hport, List.tail_nil, ← hport]
    exact (congrArg (StepEffect s) hs).mp .idle
  next e rest hport =>
    have hhead : s.port.head? = some e := by rw [hport, List.head?_cons]
    obtain rfl : rest = s.port.tail := by rw [hport, List.tail_cons]
    cases e with
    | reset =>
      cases h
      exact .reset hhead
    | read offset width =>
      obtain ⟨r, rfl⟩ := performEvent_read_effect h
      exact .read r
    | write offset width w =>
      obtain rfl | ⟨hcmd, heffect⟩ := performEvent_write_effect h
      · exact .idle
      · exact .command w t (hcmd ▸ hhead) heffect

end Sys2Proof.Machine

/-! ### Proofs: the unspecified reset values cannot be observed (spec/10_state.md R30, R33)

Two engines that the host cannot tell apart are twins. In UNINIT and FAULTED they may differ in `H`, `CNT`, `Buf` and
`D`, because no command reads these there. INIT overwrites all but `D`, so in ABSORB they differ at most in `D`, which
FINAL overwrites; in FINALIZED they are equal. The proof is that a step keeps twins. -/

namespace Sys2Proof.Machine

/-- `t` is an engine that the host cannot tell from `s`. -/
inductive Twin (s : State) : State → Prop
  | same : Twin s s
  /-- In ABSORB, another digest register. -/
  | digest (d : Vector Byte 20) : s.phase = .absorb → Twin s { s with d := d }
  /-- In UNINIT and FAULTED, all that R33 leaves unspecified. -/
  | data (h : Vector Word 5) (cnt : Vector Word 2) (buf : Vector Byte 64) (d : Vector Byte 20) :
      s.phase = .uninit ∨ s.phase = .faulted → Twin s { s with h := h, cnt := cnt, buf := buf, d := d }

/-- Twins agree on what R33 gives a reset value and on the host's side. -/
theorem Twin.agreeOffData {s t : State} (ht : Twin s t) : AgreeOffData s t := by
  cases ht <;> rfl

/-- In UNINIT and FAULTED that is all it takes. -/
theorem Twin.of_agreeOffData {s t : State} (hs : s.phase = .uninit ∨ s.phase = .faulted) (ht : AgreeOffData s t) :
    Twin s t := by
  rw [ht]
  exact .data _ _ _ _ hs

/-! Twins stay twins when the same is done to the host's side of both. -/

theorem Twin.withPort {s t : State} (ht : Twin s t) (port : List HostEvent) :
    Twin { s with port := port } { t with port := port } := by
  cases ht with
  | same => exact .same
  | digest d hs => exact .digest d hs
  | data h cnt buf d hs => exact .data h cnt buf d hs

theorem Twin.nextEpoch {s t : State} (ht : Twin s t) :
    Twin { s with epoch := s.epoch + 1 } { t with epoch := t.epoch + 1 } := by
  cases ht with
  | same => exact .same
  | digest d hs => exact .digest d hs
  | data h cnt buf d hs => exact .data h cnt buf d hs

theorem Twin.readReg_eq {s t : State} (ht : Twin s t) (r : WindowReg) : readReg r t = readReg r s := by
  cases ht with
  | same => rfl
  | digest d hs => cases r <;> simp [readReg, statusWord, digestRead, hs]
  | data h cnt buf d hs => rcases hs with hs | hs <;> cases r <;> simp [readReg, statusWord, digestRead, hs]

theorem Twin.hostRead {s t : State} (ht : Twin s t) (r : WindowReg) : Twin (hostRead r s) (hostRead r t) := by
  have hread := ht.readReg_eq r
  cases ht with
  | same => exact .same
  | digest d hs =>
    unfold Machine.hostRead
    rw [hread]
    exact .digest (s := Machine.hostRead r s) d hs
  | data h cnt buf d hs =>
    unfold Machine.hostRead
    rw [hread]
    exact .data (s := Machine.hostRead r s) h cnt buf d hs

/-! The commands on twins. -/

theorem Twin.of_absorb {s t : State} (ht : Twin s t) (hs : s.phase = .absorb) : ∃ d, t = { s with d := d } := by
  cases ht with
  | same => exact ⟨s.d, rfl⟩
  | digest d => exact ⟨d, rfl⟩
  | data h cnt buf d hs' => simp [hs] at hs'

/-- A fault raised in both leaves FAULTED twins. -/
theorem Twin.faulted {s t : State} (ht : Twin s t) (c : FaultCode) :
    Twin { s with phase := .faulted, fcode := some c } { t with phase := .faulted, fcode := some c } := by
  cases ht with
  | same => exact .same
  | digest d hs => exact .data s.h s.cnt s.buf d (.inr rfl)
  | data h cnt buf d hs => exact .data h cnt buf d (.inr rfl)

/-- INIT keeps nothing of `H`, `CNT` and `Buf` (R144). -/
theorem Twin.initState {s t : State} (ht : Twin s t) (a : Alg) : Twin (initState a s) (initState a t) := by
  cases ht with
  | same => exact .same
  | digest d hs => exact .digest d rfl
  | data h cnt buf d hs => exact .digest d rfl

/-- `AbsorbByte` neither reads nor writes `D` (R146). -/
theorem absorbByte_withDigest {b : Byte} {s t : State} (ht : absorbByte b s = .ok t) (d : Vector Byte 20) :
    absorbByte b { s with d := d } = .ok { t with d := d } := by
  by_cases room : s.fill.val + 1 < 64
  · cases (absorbByte_room room).symm.trans ht
    exact absorbByte_room (s := { s with d := d }) room
  · have full : s.fill.val = 63 := by omega
    obtain ⟨h, hc, hs⟩ := absorbByte_full (b := b) full
    obtain ⟨h', hc', hs'⟩ := absorbByte_full (b := b) (s := { s with d := d }) full
    cases hs.symm.trans ht
    cases hc.symm.trans hc'
    exact hs'

theorem absorbBytes_withDigest {bs : List Byte} {s t : State} (ht : absorbBytes bs s = .ok t) (d : Vector Byte 20) :
    absorbBytes bs { s with d := d } = .ok { t with d := d } := by
  induction bs generalizing s with
  | nil =>
    cases ht
    rfl
  | cons b bs ih =>
    obtain ⟨u, hu, -⟩ := absorbByte_ok b s
    rw [absorbBytes_cons hu] at ht
    rw [absorbBytes_cons (absorbByte_withDigest hu d)]
    exact ih ht

/-- FINAL overwrites `D` and does not read it (R149). -/
theorem finalize_withDigest (s : State) (d : Vector Byte 20) : finalize { s with d := d } = finalize s := by
  obtain ⟨h, hc, hs⟩ := finalize_eq_finalState s
  obtain ⟨h', hc', hs'⟩ := finalize_eq_finalState { s with d := d }
  cases hc.symm.trans hc'
  rw [hs, hs']
  rfl

/-- Outcomes that the host cannot tell apart: twins, or the same refusal. No step ends in a fault. -/
inductive OutcomeTwin : Host.Outcome State Fault Refusal → Host.Outcome State Fault Refusal → Prop
  | next {s t : State} : Twin s t → OutcomeTwin (.next s) (.next t)
  | refused (why : Refusal) : OutcomeTwin (.refused why) (.refused why)

theorem Twin.exec {s t : State} (ht : Twin s t) (i : Instr) : OutcomeTwin (exec i s) (exec i t) := by
  have hphase : t.phase = s.phase := by rw [ht.agreeOffData]
  by_cases hs : s.phase = .faulted
  · rw [exec_of_faulted hs, exec_of_faulted (hphase.trans hs)]
    exact .next ht
  cases hf : faultOf s.phase i with
  | some c =>
    rw [exec_of_faultOf hf, exec_of_faultOf (hphase ▸ hf)]
    exact .next (ht.faulted c)
  | none =>
    have hfeed (hi : isFeed i = true) : OutcomeTwin (Machine.exec i s) (Machine.exec i t) := by
      have hp := eq_absorb_of_faultOf_none (.inl hi) hs hf
      obtain ⟨d, rfl⟩ := ht.of_absorb hp
      obtain ⟨u, hu, hkeep, -⟩ := absorbBytes_ok (operandBytes i) s
      rw [exec_feed_eq hi hp hu, exec_feed_eq hi (s := { s with d := d }) hp (absorbBytes_withDigest hu d)]
      exact .next (.digest d (by rw [hkeep]; exact hp))
    cases i with
    | nop =>
      rw [exec_nop_eq, exec_nop_eq]
      exact .next ht
    | init a =>
      rw [exec_init_eq hs, exec_init_eq (hphase ▸ hs)]
      exact .next (ht.initState a)
    | feed0 | feed1 | feed2 | feed3 => exact hfeed rfl
    | final =>
      have hp := eq_absorb_of_faultOf_none (.inr rfl) hs hf
      obtain ⟨d, rfl⟩ := ht.of_absorb hp
      obtain ⟨h, -, hfin⟩ := finalize_eq_finalState s
      rw [exec_final_eq hp hfin, exec_final_eq (s := { s with d := d }) hp ((finalize_withDigest s d).trans hfin)]
      exact .next .same

theorem Twin.performCommand {s t : State} (ht : Twin s t) (w : Word) :
    OutcomeTwin (performCommand w s) (performCommand w t) := by
  unfold Machine.performCommand
  cases decode w with
  | ok i => exact ht.exec i
  | error e =>
    have hphase : t.phase = s.phase := by rw [ht.agreeOffData]
    by_cases hs : s.phase = .faulted
    · rw [runCommand_faulted hs, runCommand_faulted (hphase.trans hs)]
      exact .next ht
    · rw [runCommand_error hs rfl, runCommand_error (hphase ▸ hs) rfl]
      exact .next (ht.faulted .illegalCmd)

/-! The step, and any number of steps. -/

theorem Twin.performEvent {s t : State} (ht : Twin s t) (e : HostEvent) :
    OutcomeTwin (performEvent e s) (performEvent e t) := by
  cases e with
  | reset =>
    have hreset : resetEngine t = resetEngine s := by rw [ht.agreeOffData]; rfl
    simp only [Machine.performEvent, hreset]
    exact .next .same
  | read offset width =>
    cases ha : accessTarget offset width with
    | ok r =>
      simp only [Machine.performEvent, ha]
      exact .next (ht.hostRead r)
    | error why =>
      simp only [Machine.performEvent, ha]
      exact .refused why
  | write offset width data =>
    cases ha : accessTarget offset width with
    | ok r =>
      simp only [Machine.performEvent, ha]
      cases r with
      | cmd => exact ht.nextEpoch.performCommand data
      | status | digest | reserved => exact .next ht
    | error why =>
      simp only [Machine.performEvent, ha]
      exact .refused why

theorem Twin.step {s t : State} (ht : Twin s t) : OutcomeTwin (step s) (step t) := by
  have hport : t.port = s.port := by rw [ht.agreeOffData]
  unfold Machine.step performNext
  rw [hport]
  cases s.port with
  | nil => exact .next ht
  | cons e rest => exact (ht.withPort rest).performEvent e

theorem Twin.runSteps {s t : State} (ht : Twin s t) (n : Nat) : OutcomeTwin (runSteps n s) (runSteps n t) := by
  induction n generalizing s t with
  | zero => exact .next ht
  | succ n ih =>
    have hstep := ht.step
    unfold Machine.runSteps
    generalize Machine.step s = o, Machine.step t = o' at hstep
    cases hstep with
    | next hnext => exact ih hnext
    | refused why => exact .refused why

/-- What the host can read of a twin. -/
theorem Twin.observations {s t : State} (ht : Twin s t) :
    t.replies = s.replies ∧ statusWord t = statusWord s ∧ (s.phase = .finalized → t.d = s.d) := by
  refine ⟨by rw [ht.agreeOffData], ht.readReg_eq .status, fun hs => ?_⟩
  cases ht with
  | same => rfl
  | digest d hs' => simp [hs] at hs'
  | data h cnt buf d hs' => simp [hs] at hs'

/-- Settles O22: two engines in UNINIT that differ in the unspecified values are twins, and steps keep twins. -/
theorem unspecifiedResetValuesUnobservable : Obligations.UnspecifiedResetValuesUnobservable := by
  intro n s t hs hagree
  have hrun := (Twin.of_agreeOffData (.inl hs) hagree).runSteps n
  constructor
  · intro s' hs'
    rw [hs'] at hrun
    generalize runSteps n t = o at hrun
    cases hrun with
    | next ht => exact ⟨_, rfl, ht.observations⟩
  · intro why hwhy
    rw [hwhy] at hrun
    generalize runSteps n t = o at hrun
    cases hrun
    rfl

end Sys2Proof.Machine

/-! ### Proofs: the phase invariants (spec/10_state.md R34)

The rows of R34 speak of the engine only. Each effect of a word on CMD leaves a state that meets the row of its phase;
the one with content is FEED, whose bytes keep the row ABSORB one by one. -/

namespace Sys2Proof.Machine

/-! The rows, on the effects. -/

/-- The counter's value after `CounterAdd` (R101): the sum mod 2^64. -/
theorem counterValue_counterAdd (n : Word) (cnt : Vector Word 2) :
    counterValue (counterAdd n cnt) = (counterValue cnt + n.toNat) % 2 ^ 64 := by
  change (cnt[0].toNat + n.toNat) % 2 ^ 32 +
    2 ^ 32 * ((cnt[1].toNat + (cnt[0].toNat + n.toNat) >>> 32) % 2 ^ 32) =
      (cnt[0].toNat + 2 ^ 32 * cnt[1].toNat + n.toNat) % 2 ^ 64
  rw [Nat.shiftRight_eq_div_pow]
  omega

theorem bufferClear_of_replicate {s : State} (hs : s.buf = Vector.replicate 64 0) : BufferClear s := by
  intro i _
  simp [hs]

theorem rowAbsorb_initState (a : Alg) (s : State) : RowAbsorb (initState a s) := by
  refine ⟨bufferClear_of_replicate rfl, rfl, fun ha => ?_⟩
  obtain rfl : a = .md4 := ha
  rfl

theorem rowAbsorb_absorbByte {b : Byte} {s t : State} (hs : RowAbsorb s) (ht : absorbByte b s = .ok t) :
    RowAbsorb t := by
  obtain ⟨hbuf, hcnt, hspare⟩ := hs
  by_cases room : s.fill.val + 1 < 64
  · cases (absorbByte_room room).symm.trans ht
    refine ⟨fun i hi => ?_, hcnt, hspare⟩
    have hlt : s.fill.val < i.val := hi
    simpa [Vector.getElem_set, hlt.ne] using hbuf i hlt.le
  · obtain ⟨h, hc, hfull⟩ := absorbByte_full (b := b) (s := s) (by omega)
    cases hfull.symm.trans ht
    refine ⟨bufferClear_of_replicate rfl, ?_, fun ha => ?_⟩
    · have hsum : counterValue (counterAdd 512 s.cnt) = (counterValue s.cnt + 512) % 2 ^ 64 :=
        counterValue_counterAdd 512 s.cnt
      change counterValue (counterAdd 512 s.cnt) % 512 = 0
      omega
    · have ha' : s.alg = .md4 := ha
      rw [ha'] at hc
      exact (compressChain_md4_spare hc).trans (hspare ha')

theorem rowAbsorb_absorbBytes {bs : List Byte} {s t : State} (hs : RowAbsorb s) (ht : absorbBytes bs s = .ok t) :
    RowAbsorb t := by
  induction bs generalizing s with
  | nil =>
    cases ht
    exact hs
  | cons b bs ih =>
    obtain ⟨u, hu, -⟩ := absorbByte_ok b s
    rw [absorbBytes_cons hu] at ht
    exact ih (rowAbsorb_absorbByte hs hu) ht

theorem rowFinalized_finalState {s : State} {h : Vector Word 5} (hs : RowAbsorb s)
    (hc : chainBlocks s.alg s.h (finalBlocks s) = .ok h) : RowFinalized (finalState h s) := by
  refine ⟨rfl, bufferClear_of_replicate rfl, rfl, fun ha => ?_⟩
  have ha' : s.alg = .md4 := ha
  obtain ⟨-, -, hspare⟩ := hs
  rw [ha'] at hc
  exact (chainBlocks_md4_spare hc).trans (hspare ha')

/-! The invariant, by phase. -/

theorem inv_uninit_iff {s : State} (hs : s.phase = .uninit) : Inv s ↔ s.fcode = none ∧ RowUninit s := by
  unfold Inv
  cases hc : s.fcode <;> simp [hs]

theorem inv_absorb_iff {s : State} (hs : s.phase = .absorb) : Inv s ↔ s.fcode = none ∧ RowAbsorb s := by
  unfold Inv
  cases hc : s.fcode <;> simp [hs]

theorem inv_finalized_iff {s : State} (hs : s.phase = .finalized) :
    Inv s ↔ s.fcode = none ∧ RowFinalized s ∧ s.d = byteRegister 20 (digestBytes s.alg s.h) := by
  unfold Inv
  cases hc : s.fcode <;> simp [hs]

/-- An illegal word in any phase but FAULTED keeps the row of that phase (R240). -/
theorem inv_illegal {s : State} (hs : Inv s) (hp : s.phase ≠ .faulted) :
    Inv { s with phase := .faulted, fcode := some .illegalCmd } := by
  change RowUninit s ∨ RowAbsorb s ∨ RowFinalized s
  cases hphase : s.phase with
  | uninit =>
    obtain ⟨-, hrow⟩ := (inv_uninit_iff hphase).mp hs
    exact .inl hrow
  | absorb =>
    obtain ⟨-, hrow⟩ := (inv_absorb_iff hphase).mp hs
    exact .inr (.inl hrow)
  | finalized =>
    obtain ⟨-, hrow, -⟩ := (inv_finalized_iff hphase).mp hs
    exact .inr (.inr hrow)
  | faulted => exact absurd hphase hp

/-- A fault of the matrix keeps the row of the one phase that raises its code (R241, R242). -/
theorem inv_fault {s : State} {i : Instr} {c : FaultCode} (hs : Inv s) (hf : faultOf s.phase i = some c) :
    Inv { s with phase := .faulted, fcode := some c } := by
  obtain ⟨hphase, -, rfl⟩ | ⟨hphase, -, rfl⟩ | ⟨hphase, -, rfl⟩ := faultOf_cases hf
  · obtain ⟨-, hrow⟩ := (inv_uninit_iff hphase).mp hs
    exact hrow
  all_goals
    obtain ⟨-, hrow, -⟩ := (inv_finalized_iff hphase).mp hs
    exact hrow

/-- Outside FAULTED there is no fault code (R28). -/
theorem fcode_eq_none_of_inv {s : State} (hs : Inv s) (hp : s.phase ≠ .faulted) : s.fcode = none := by
  cases hphase : s.phase with
  | uninit => exact ((inv_uninit_iff hphase).mp hs).1
  | absorb => exact ((inv_absorb_iff hphase).mp hs).1
  | finalized => exact ((inv_finalized_iff hphase).mp hs).1
  | faulted => exact absurd hphase hp

theorem inv_commandEffect {w : Word} {s t : State} (hs : Inv s) (ht : CommandEffect w s t) : Inv t := by
  cases ht with
  | noEffect => exact hs
  | illegal hp => exact inv_illegal hs hp
  | fault i c hf => exact inv_fault hs hf
  | init a hp =>
    have hcode := fcode_eq_none_of_inv hs hp
    exact (inv_absorb_iff rfl).mpr ⟨hcode, rowAbsorb_initState a s⟩
  | feed i _ hphase _ _ hfeed =>
    obtain ⟨hcode, hrow⟩ := (inv_absorb_iff hphase).mp hs
    have hkeep := absorbBytes_frame hfeed
    exact (inv_absorb_iff (by rw [hkeep]; exact hphase)).mpr
      ⟨by rw [hkeep]; exact hcode, rowAbsorb_absorbBytes hrow hfeed⟩
  | final h hphase _ hc =>
    obtain ⟨hcode, hrow⟩ := (inv_absorb_iff hphase).mp hs
    exact (inv_finalized_iff rfl).mpr ⟨hcode, rowFinalized_finalState hrow hc, rfl⟩

/-- Settles O29: the invariant is of the engine alone, and each effect of a step leaves the row of the next phase. -/
theorem phaseInvariantKept : Obligations.PhaseInvariantKept := by
  intro s t hs ht
  cases step_effect ht with
  | reset => exact (inv_uninit_iff rfl).mpr ⟨rfl, rfl, rfl⟩
  | idle => exact hs
  | read r => exact hs
  | command w _ _ hw => exact inv_commandEffect (s := { s with port := s.port.tail, epoch := s.epoch + 1 }) hs hw

/-- Settles O30: after reset the row UNINIT holds. -/
theorem phaseInvariantAtReset : Obligations.PhaseInvariantAtReset := (inv_uninit_iff rfl).mpr ⟨rfl, rfl, rfl⟩

end Sys2Proof.Machine

/-! ### Proofs: which commands write ALG, `D` and `H` (spec/10_state.md R22, R23, R27) -/

namespace Sys2Proof.Machine

/-- `AbsorbByte` of fewer bytes than the block has room for writes the buffer and FILL only (R146). -/
theorem absorbBytes_room_frame {bs : List Byte} {s t : State} (ht : absorbBytes bs s = .ok t)
    (room : s.fill.val + bs.length < 64) : t = { s with buf := t.buf, fill := t.fill } := by
  induction bs generalizing s with
  | nil =>
    cases ht
    rfl
  | cons b bs ih =>
    rw [List.length_cons] at room
    rw [absorbBytes_cons (absorbByte_room (by omega))] at ht
    exact (ih ht (by change s.fill.val + 1 + bs.length < 64; omega) :)

/-- Settles O31: of the effects of a step only a reset and INIT change ALG. -/
theorem onlyInitWritesAlg : Obligations.OnlyInitWritesAlg := by
  intro s t ht hne
  cases step_effect ht with
  | reset hhead => exact .inl hhead
  | idle => exact absurd rfl hne
  | read r => exact absurd rfl hne
  | command w _ hhead hw =>
    cases hw with
    | noEffect | illegal | fault | final => exact absurd rfl hne
    | init a _ hd => exact .inr ⟨w, a, hhead, hd, rfl⟩
    | feed i _ _ _ _ hfeed => exact absurd (by rw [absorbBytes_frame hfeed]) hne

/-- Settles O32: of the effects of a step only a reset and FINAL change `D`. -/
theorem onlyFinalWritesDigest : Obligations.OnlyFinalWritesDigest := by
  intro s t ht hne
  cases step_effect ht with
  | reset hhead => exact .inl hhead
  | idle => exact absurd rfl hne
  | read r => exact absurd rfl hne
  | command w _ hhead hw =>
    cases hw with
    | noEffect | illegal | fault | init => exact absurd rfl hne
    | feed i _ _ _ _ hfeed => exact absurd (by rw [absorbBytes_frame hfeed]) hne
    | final h _ hd => exact .inr ⟨w, hhead, hd⟩

/-- Settles O33: of the effects of a step only a reset, INIT, FINAL and a FEED that fills the block change `H`. -/
theorem onlyInitAndCompressWriteChain : Obligations.OnlyInitAndCompressWriteChain := by
  intro s t ht hne
  cases step_effect ht with
  | reset hhead => exact .inl hhead
  | idle => exact absurd rfl hne
  | read r => exact absurd rfl hne
  | command w _ hhead hw =>
    cases hw with
    | noEffect | illegal | fault => exact absurd rfl hne
    | init a _ hd => exact .inr ⟨w, _, hhead, hd, .inl ⟨a, rfl⟩⟩
    | final h _ hd => exact .inr ⟨w, _, hhead, hd, .inr (.inr rfl)⟩
    | feed i _ _ hd hi hfeed =>
      refine .inr ⟨w, i, hhead, hd, .inr (.inl ⟨hi, ?_⟩)⟩
      by_contra hfull
      have hframe := absorbBytes_room_frame hfeed (Nat.lt_of_not_le hfull)
      exact hne (by rw [hframe])

end Sys2Proof.Machine

/-! ### Proofs: STATUS (spec/10_state.md R29, R33) -/

namespace Sys2Proof.Machine

/-- Settles O20: the reset state and its STATUS, computed. -/
theorem resetLeavesUninit : Obligations.ResetLeavesUninit := ⟨rfl, rfl, rfl, rfl, rfl⟩

/-- STATUS bit by bit: the table of R29. -/
theorem getLsbD_statusWord (s : State) {i : Nat} (hi : i < 32) :
    (statusWord s).getLsbD i =
      if i < 2 then s.phase.toBits.getLsbD i
      else if i < 3 then s.alg.toBit.getLsbD (i - 2)
      else if i < 4 then false
      else if i < 8 then (fcodeBits s.fcode).getLsbD (i - 4)
      else if i < 14 then s.fill.val.testBit (i - 8)
      else false := by
  have hword : (statusWord s).getLsbD i =
      (s.phase.toBits.getLsbD i || (!decide (i < 2) && s.alg.toBit.getLsbD (i - 2)) ||
        (!decide (i < 4) && (fcodeBits s.fcode).getLsbD (i - 4)) || (!decide (i < 8) && s.fill.val.testBit (i - 8))) := by
    have h2 : i - 2 < 32 := by omega
    have h4 : i - 4 < 32 := by omega
    have h8 : i - 8 < 32 := by omega
    simp only [statusWord, BitVec.getLsbD_or, BitVec.getLsbD_shiftLeft, BitVec.getLsbD_setWidth, BitVec.getLsbD_ofNat,
      hi, h2, h4, h8, decide_true, Bool.true_and]
  have hphase (h : 2 ≤ i) : s.phase.toBits.getLsbD i = false := BitVec.getLsbD_of_ge _ _ h
  have halg (h : 3 ≤ i) : s.alg.toBit.getLsbD (i - 2) = false := BitVec.getLsbD_of_ge _ _ (by omega)
  have hcode (h : 8 ≤ i) : (fcodeBits s.fcode).getLsbD (i - 4) = false := BitVec.getLsbD_of_ge _ _ (by omega)
  have hfill (h : 14 ≤ i) : s.fill.val.testBit (i - 8) = false :=
    Nat.testBit_lt_two_pow (s.fill.isLt.trans_le (Nat.pow_le_pow_right Nat.two_pos (by omega : 6 ≤ i - 8)))
  rw [hword]
  split_ifs with h2 h3 h4 h8 h14
  · simp [h2, h2.trans (by decide : 2 < 4), h2.trans (by decide : 2 < 8)]
  · simp [hphase (by omega), h2, h3.trans (by decide : 3 < 4), h3.trans (by decide : 3 < 8)]
  · simp [hphase (by omega), halg (by omega), h4, h4.trans (by decide : 4 < 8)]
  · simp [hphase (by omega), halg (by omega), h4, h8]
  · simp [hphase (by omega), halg (by omega), hcode (by omega), h8]
  · simp [hphase (by omega), halg (by omega), hcode (by omega), hfill (by omega)]

theorem statusWord_phase (s : State) : (statusWord s).extractLsb' 0 2 = s.phase.toBits := by
  apply BitVec.eq_of_getLsbD_eq
  intro i hi
  rw [BitVec.getLsbD_extractLsb', getLsbD_statusWord s (by omega), if_pos (by omega)]
  simp [hi]

theorem statusWord_alg (s : State) : (statusWord s).extractLsb' 2 1 = s.alg.toBit := by
  apply BitVec.eq_of_getLsbD_eq
  intro i hi
  rw [BitVec.getLsbD_extractLsb', getLsbD_statusWord s (by omega), if_neg (by omega), if_pos (by omega)]
  simp [hi]

theorem statusWord_bit3 (s : State) : (statusWord s).extractLsb' 3 1 = 0 := by
  apply BitVec.eq_of_getLsbD_eq
  intro i hi
  rw [BitVec.getLsbD_extractLsb', getLsbD_statusWord s (by omega), if_neg (by omega), if_neg (by omega),
    if_pos (by omega)]
  simp

theorem statusWord_fcode (s : State) : (statusWord s).extractLsb' 4 4 = fcodeBits s.fcode := by
  apply BitVec.eq_of_getLsbD_eq
  intro i hi
  rw [BitVec.getLsbD_extractLsb', getLsbD_statusWord s (by omega), if_neg (by omega), if_neg (by omega),
    if_neg (by omega), if_pos (by omega)]
  simp [hi]

theorem statusWord_fill (s : State) : (statusWord s).extractLsb' 8 6 = BitVec.ofNat 6 s.fill.val := by
  apply BitVec.eq_of_getLsbD_eq
  intro i hi
  rw [BitVec.getLsbD_extractLsb', getLsbD_statusWord s (by omega), if_neg (by omega), if_neg (by omega),
    if_neg (by omega), if_neg (by omega), if_pos (by omega), BitVec.getLsbD_ofNat]
  simp [hi]

theorem statusWord_high (s : State) : (statusWord s).extractLsb' 14 18 = 0 := by
  apply BitVec.eq_of_getLsbD_eq
  intro i hi
  rw [BitVec.getLsbD_extractLsb', getLsbD_statusWord s (by omega), if_neg (by omega), if_neg (by omega),
    if_neg (by omega), if_neg (by omega), if_neg (by omega)]
  simp

/-- Settles O16: the fields stand apart, and each value has the code of R21, R22 or R241. -/
theorem statusFields : Obligations.StatusFields := by
  intro s
  refine ⟨?_, ?_, statusWord_bit3 s, ?_, ?_, statusWord_high s⟩
  · rw [statusWord_phase]
    cases s.phase <;> rfl
  · rw [statusWord_alg]
    cases s.alg <;> rfl
  · rw [statusWord_fcode]
    rcases s.fcode with _ | c
    · rfl
    · cases c <;> rfl
  · rw [statusWord_fill, BitVec.toNat_ofNat, Nat.mod_eq_of_lt s.fill.isLt]

end Sys2Proof.Machine

/-! ### Proofs: the digest registers (spec/10_state.md R30, spec/43_md4.md R190, spec/44_sha0.md R217)

`D` holds the bytes of five words, in the order of the algorithm that FINAL ran; DIGESTk packs the four bytes of word
`k` in little-endian order. -/

namespace Sys2Proof.Machine

/-! A word and its bytes (spec/41_wordpacking.md R121 to R125). -/

/-- The two orders of packing differ by the reversal of the bytes. -/
theorem packWord_be (b0 b1 b2 b3 : Byte) : packWord .be b0 b1 b2 b3 = packWord .le b3 b2 b1 b0 := by
  simp only [packWord]
  rw [BitVec.or_comm, BitVec.or_comm (_ ||| _), BitVec.or_comm (b0.setWidth 32 <<< 24), ← BitVec.or_assoc,
    ← BitVec.or_assoc]

theorem unpackWord_be (w : Word) : unpackWord .be w = (unpackWord .le w).reverse := rfl

/-- Bit by bit: each lane's byte comes back alone, the others are shifted past it. -/
theorem unpackWord_packWord_le (b0 b1 b2 b3 : Byte) :
    unpackWord .le (packWord .le b0 b1 b2 b3) = [b0, b1, b2, b3] := by
  simp only [unpackWord, packWord, List.cons.injEq, and_true]
  refine ⟨?_, ?_, ?_, ?_⟩ <;>
    · ext i hi
      interval_cases i <;> simp

theorem packWord_unpackWord_le (w : Word) :
    packWord .le (w.setWidth 8) ((w >>> 8).setWidth 8) ((w >>> 16).setWidth 8) ((w >>> 24).setWidth 8) = w := by
  ext i hi
  simp only [packWord]
  interval_cases i <;> simp

theorem unpackWord_packWord (o : ByteOrder) (b0 b1 b2 b3 : Byte) :
    unpackWord o (packWord o b0 b1 b2 b3) = [b0, b1, b2, b3] := by
  cases o with
  | le => exact unpackWord_packWord_le b0 b1 b2 b3
  | be =>
    rw [packWord_be, unpackWord_be, unpackWord_packWord_le]
    rfl

theorem unpackWord_le_injective : Function.Injective (unpackWord .le) := by
  intro w v hbytes
  simp only [unpackWord, List.cons.injEq, and_true] at hbytes
  obtain ⟨h0, h1, h2, h3⟩ := hbytes
  rw [← packWord_unpackWord_le w, h0, h1, h2, h3, packWord_unpackWord_le]

theorem wordsToBytes_cons (w : Word) (ws : List Word) (o : ByteOrder) :
    wordsToBytes (w :: ws) o = unpackWord o w ++ wordsToBytes ws o := List.flatMap_cons

theorem wordsToBytes_singleton (w : Word) (o : ByteOrder) : wordsToBytes [w] o = unpackWord o w :=
  List.append_nil _

/-- Word `k` fills the bytes from `4k` on. -/
theorem wordsToBytes_getD {ws : List Word} (o : ByteOrder) {k j : Nat} (hk : k < ws.length) (hj : j < 4) :
    (wordsToBytes ws o).getD (4 * k + j) 0 = (unpackWord o ws[k]).getD j 0 := by
  induction ws generalizing k with
  | nil => exact absurd hk (Nat.not_lt_zero k)
  | cons w ws ih =>
    rw [wordsToBytes_cons]
    cases k with
    | zero => simp [List.getD_eq_getElem?_getD, List.getElem?_append_left, hj]
    | succ k =>
      have hpast : 4 * (k + 1) + j = (unpackWord o w).length + (4 * k + j) := by
        rw [unpackWord_length]
        omega
      rw [hpast, List.getD_append_right _ _ _ _ (Nat.le_add_right _ _), Nat.add_sub_cancel_left]
      exact ih (Nat.lt_of_succ_lt_succ hk)

/-! DIGESTk of the `D` that FINAL writes. -/

/-- The bytes of DIGESTk are those of word `k`, in whichever order the words were written to `D`. -/
theorem unpackWord_digestWord (ws : Vector Word 5) (o : ByteOrder) (k : Fin 5) :
    unpackWord .le (digestWord (byteRegister 20 (wordsToBytes ws.toList o)) k) = unpackWord o ws[k] := by
  have hbyte (j : Nat) (hj : j < 4) :
      (byteRegister 20 (wordsToBytes ws.toList o))[4 * k.val + j] = (unpackWord o ws[k]).getD j 0 := by
    rw [byteRegister, Vector.getElem_ofFn]
    exact wordsToBytes_getD o (by simp) hj
  have hword : unpackWord o ws[k] = [(unpackWord o ws[k]).getD 0 0, (unpackWord o ws[k]).getD 1 0,
      (unpackWord o ws[k]).getD 2 0, (unpackWord o ws[k]).getD 3 0] := by
    cases o <;> rfl
  rw [digestWord, unpackWord_packWord, hword, ← hbyte 0 (by decide), ← hbyte 1 (by decide), ← hbyte 2 (by decide),
    ← hbyte 3 (by decide)]
  rfl

/-- Under MD4 the words in `D` are `H[0]` to `H[3]` and 0 (R27, R190). -/
theorem digestBytes_md4 (h : Vector Word 5) :
    digestBytes .md4 h = wordsToBytes #v[h[0], h[1], h[2], h[3], 0].toList .le := rfl

/-- Under SHA-0 they are `H[0]` to `H[4]` (R217). -/
theorem digestBytes_sha0 (h : Vector Word 5) : digestBytes .sha0 h = wordsToBytes h.toList .be := rfl

/-- Settles O53: DIGESTk holds the bytes of one word of `D`, which FINAL writes from `H` in the algorithm's order. -/
theorem digestRegisters : Obligations.DigestRegisters := by
  intro s k
  have hread (hs : s.phase = .finalized) : digestRead k s = digestWord s.d k := if_pos hs
  refine ⟨hread, fun hs hd => ?_, fun hs hd => ?_, fun hs => if_neg hs⟩
  · have hbytes := unpackWord_digestWord #v[s.h[0], s.h[1], s.h[2], s.h[3], 0] .le k
    rw [← digestBytes_md4, ← hd, ← hread hs] at hbytes
    rw [unpackWord_le_injective hbytes]
    fin_cases k <;> rfl
  · have hbytes := unpackWord_digestWord s.h .be k
    rw [← digestBytes_sha0, ← hd, ← hread hs] at hbytes
    rw [wordsToBytes_singleton, wordsToBytes_singleton, hbytes, unpackWord_be]

end Sys2Proof.Machine

/-! ### Proofs: the word of a command decodes to that command (spec/30_encoding.md R72 to R77)

The word of a FEED is put together from its fields, and the decoder takes the same fields out of it. -/

namespace Sys2Proof

/-- The word of a FEED, field by field: `OP = 2`, bits [27:26] zero, `N`, `B2`, `B1`, `B0` (R71, R74). -/
def feedWord (n : BitVec 2) (b2 b1 b0 : Byte) : Word :=
  0x20000000#32 ||| n.setWidth 32 <<< 24 ||| inLane b2 2 ||| inLane b1 1 ||| inLane b0 0

@[simp] theorem inLane_zero (k : Nat) : inLane 0#8 k = 0#32 := by simp [inLane]

theorem encode_feed1 (b0 : Byte) : encode (.feed1 b0) = feedWord 1 0 0 b0 := by simp [encode, feedWord]

theorem encode_feed2 (b0 b1 : Byte) : encode (.feed2 b0 b1) = feedWord 2 0 b1 b0 := by simp [encode, feedWord]

theorem encode_feed3 (b0 b1 b2 : Byte) : encode (.feed3 b0 b1 b2) = feedWord 3 b2 b1 b0 := rfl

section
variable (n : BitVec 2) (b2 b1 b0 : Byte)

theorem opcode_feedWord : (feedWord n b2 b1 b0).extractLsb' 26 6 = 0b001000#6 := by
  ext i hi
  simp only [feedWord, inLane]
  interval_cases i <;> simp

@[simp] theorem nField_feedWord : nField (feedWord n b2 b1 b0) = n := by
  ext i hi
  simp only [nField, feedWord, inLane]
  interval_cases i <;> simp

@[simp] theorem lanes_feedWord : lane (feedWord n b2 b1 b0) 0 = b0 ∧ lane (feedWord n b2 b1 b0) 1 = b1 ∧
    lane (feedWord n b2 b1 b0) 2 = b2 := by
  refine ⟨?_, ?_, ?_⟩ <;>
    · ext i hi
      simp only [lane, feedWord, inLane]
      interval_cases i <;> simp

end

/-- R77's test of the data lanes at index `n` or above: each bit it looks at is a bit of one of these lanes. -/
theorem lanes_shifted_eq_zero {w : Word} {n : Nat} (hw : ∀ k, k < 3 → n ≤ k → lane w k = 0) :
    w.extractLsb' 0 24 >>> (8 * n) = 0#24 := by
  ext i hi
  by_cases hin : 8 * n + i < 24
  · have hlane := congrArg (·.getLsbD ((8 * n + i) % 8)) (hw ((8 * n + i) / 8) (by omega) (by omega))
    have hbit : 8 * ((8 * n + i) / 8) + (8 * n + i) % 8 = 8 * n + i := Nat.div_add_mod ..
    have hmod : (8 * n + i) % 8 < 8 := Nat.mod_lt _ (by decide)
    simp only [lane, BitVec.getLsbD_extractLsb', hbit, hmod] at hlane
    simpa [hin] using hlane
  · simp [hin]

theorem decode_feedWord {n : BitVec 2} {b2 b1 b0 : Byte}
    (hw : ∀ k, k < 3 → n.toNat ≤ k → lane (feedWord n b2 b1 b0) k = 0) :
    decode (feedWord n b2 b1 b0) = .ok (feedForm (feedWord n b2 b1 b0)) := by
  rw [decode_op2 (opcode_feedWord n b2 b1 b0), nField_feedWord, if_pos (lanes_shifted_eq_zero hw)]

/-- The lanes a FEED does not use are 0 in its word, so each of its forms passes the test of R77. -/
theorem decode_encode (i : Instr) : decode (encode i) = .ok i := by
  cases i with
  | nop | feed0 | final => decide
  | init a => cases a <;> decide
  | feed1 b0 =>
    rw [encode_feed1, decode_feedWord]
    · simp [feedForm]
    · intro k hk (hn : 1 ≤ k)
      interval_cases k <;> simp
  | feed2 b0 b1 =>
    rw [encode_feed2, decode_feedWord]
    · simp [feedForm]
    · intro k hk (hn : 2 ≤ k)
      obtain rfl : k = 2 := by omega
      simp
  | feed3 b0 b1 b2 =>
    rw [encode_feed3, decode_feedWord]
    · simp [feedForm]
    · intro k hk hn
      exact absurd hk (Nat.not_lt_of_le hn)

end Sys2Proof

/-! ### Proofs: the words of a sequence of commands run as that sequence (spec/20_memory.md R59)

A command does not look at the port or the epoch and leaves both as they are. So a run of a sequence is the same run
with the words still to come on the port and the epoch counting, which is what the steps of a host's writes do. -/

namespace Sys2Proof.Machine

/-- The state with another port and another epoch. -/
def State.withHost (s : State) (port : List HostEvent) (epoch : Nat) : State := { s with port := port, epoch := epoch }

/-! Neither is read by a command. -/

theorem absorbByte_withHost {b : Byte} {s t : State} (ht : absorbByte b s = .ok t) (port : List HostEvent)
    (epoch : Nat) : absorbByte b (s.withHost port epoch) = .ok (t.withHost port epoch) := by
  by_cases room : s.fill.val + 1 < 64
  · cases (absorbByte_room room).symm.trans ht
    exact absorbByte_room (s := s.withHost port epoch) room
  · have full : s.fill.val = 63 := by omega
    obtain ⟨h, hc, hs⟩ := absorbByte_full (b := b) full
    obtain ⟨h', hc', hs'⟩ := absorbByte_full (b := b) (s := s.withHost port epoch) full
    cases hs.symm.trans ht
    cases hc.symm.trans hc'
    exact hs'

theorem absorbBytes_withHost {bs : List Byte} {s t : State} (ht : absorbBytes bs s = .ok t) (port : List HostEvent)
    (epoch : Nat) : absorbBytes bs (s.withHost port epoch) = .ok (t.withHost port epoch) := by
  induction bs generalizing s with
  | nil =>
    cases ht
    rfl
  | cons b bs ih =>
    obtain ⟨u, hu, -⟩ := absorbByte_ok b s
    rw [absorbBytes_cons hu] at ht
    rw [absorbBytes_cons (absorbByte_withHost hu port epoch)]
    exact ih ht

theorem finalize_withHost {s t : State} (ht : finalize s = .ok t) (port : List HostEvent) (epoch : Nat) :
    finalize (s.withHost port epoch) = .ok (t.withHost port epoch) := by
  obtain ⟨h, hc, hs⟩ := finalize_eq_finalState s
  obtain ⟨h', hc', hs'⟩ := finalize_eq_finalState (s.withHost port epoch)
  cases hs.symm.trans ht
  cases hc.symm.trans hc'
  exact hs'

theorem exec_withHost {i : Instr} {s t : State} (ht : exec i s = .next t) (port : List HostEvent) (epoch : Nat) :
    exec i (s.withHost port epoch) = .next (t.withHost port epoch) := by
  by_cases hs : s.phase = .faulted
  · cases (exec_of_faulted hs i).symm.trans ht
    exact exec_of_faulted (s := s.withHost port epoch) hs i
  cases hf : faultOf s.phase i with
  | some c =>
    cases (exec_of_faultOf hf).symm.trans ht
    exact exec_of_faultOf (s := s.withHost port epoch) hf
  | none =>
    have hfeed (hi : isFeed i = true) : exec i (s.withHost port epoch) = .next (t.withHost port epoch) := by
      have hp := eq_absorb_of_faultOf_none (.inl hi) hs hf
      obtain ⟨u, hu, -⟩ := absorbBytes_ok (operandBytes i) s
      cases (exec_feed_eq hi hp hu).symm.trans ht
      exact exec_feed_eq hi hp (absorbBytes_withHost hu port epoch)
    cases i with
    | nop =>
      cases (exec_nop_eq s).symm.trans ht
      exact exec_nop_eq (s.withHost port epoch)
    | init a =>
      cases (exec_init_eq hs a).symm.trans ht
      exact exec_init_eq (s := s.withHost port epoch) hs a
    | feed0 | feed1 | feed2 | feed3 => exact hfeed rfl
    | final =>
      have hp := eq_absorb_of_faultOf_none (.inr rfl) hs hf
      obtain ⟨h, -, hu⟩ := finalize_eq_finalState s
      cases (exec_final_eq hp hu).symm.trans ht
      exact exec_final_eq hp (finalize_withHost hu port epoch)

/-! Neither is written by a command. -/

theorem CommandEffect.port_epoch_eq {w : Word} {s t : State} (ht : CommandEffect w s t) :
    t.port = s.port ∧ t.epoch = s.epoch := by
  cases ht with
  | noEffect | illegal | fault | init | final => exact ⟨rfl, rfl⟩
  | feed _ _ _ _ _ hfeed =>
    rw [absorbBytes_frame hfeed]
    exact ⟨rfl, rfl⟩

theorem performCommand_encode (i : Instr) (s : State) : performCommand (encode i) s = exec i s := by
  rw [performCommand, decode_encode]

theorem exec_port_epoch_eq {i : Instr} {s t : State} (ht : exec i s = .next t) :
    t.port = s.port ∧ t.epoch = s.epoch := by
  obtain ⟨u, hu, heffect⟩ := performCommand_effect (encode i) s
  cases ht.symm.trans ((performCommand_encode i s).symm.trans hu)
  exact heffect.port_epoch_eq

/-- A sequence that ends in a state: its first command does, and the rest does from there. -/
theorem runCommands_cons_eq {i : Instr} {is : List Instr} {s t : State} (ht : runCommands (i :: is) s = .next t) :
    ∃ u, exec i s = .next u ∧ runCommands is u = .next t := by
  unfold runCommands at ht
  split at ht
  next u hu => exact ⟨u, hu, ht⟩
  all_goals cases ht

theorem runCommands_port_epoch_eq {is : List Instr} {s t : State} (ht : runCommands is s = .next t) :
    t.port = s.port ∧ t.epoch = s.epoch := by
  induction is generalizing s with
  | nil =>
    cases ht
    exact ⟨rfl, rfl⟩
  | cons i is ih =>
    obtain ⟨u, hu, hrest⟩ := runCommands_cons_eq ht
    obtain ⟨hport, hepoch⟩ := exec_port_epoch_eq hu
    rw [← hport, ← hepoch]
    exact ih hrest

/-! The steps. -/

theorem step_of_port {s : State} {e : HostEvent} {rest : List HostEvent} (hs : s.port = e :: rest) :
    step s = performEvent e { s with port := rest } := by
  rw [step, performNext, hs]

theorem step_cmdWrite_encode (i : Instr) (rest : List HostEvent) (s : State) (epoch : Nat) :
    step (s.withHost (cmdWrite (encode i) :: rest) epoch) = exec i (s.withHost rest (epoch + 1)) := by
  rw [step_of_port rfl]
  exact performCommand_encode i (s.withHost rest (epoch + 1))

theorem runSteps_succ_of_step {s t : State} (n : Nat) (ht : step s = .next t) : runSteps (n + 1) s = runSteps n t := by
  rw [runSteps, ht]

/-- The requests of a host that writes the words of the commands to CMD, one after the other. -/
def commandWrites (is : List Instr) : List HostEvent := is.map fun i => cmdWrite (encode i)

/-- By induction on the commands: a step takes one word off the port and performs its command. -/
theorem runSteps_commandWrites {is : List Instr} {s t : State} (ht : runCommands is s = .next t)
    (rest : List HostEvent) (epoch : Nat) :
    runSteps is.length (s.withHost (commandWrites is ++ rest) epoch) = .next (t.withHost rest (epoch + is.length)) := by
  induction is generalizing s epoch with
  | nil =>
    cases ht
    rfl
  | cons i is ih =>
    obtain ⟨u, hu, hrest⟩ := runCommands_cons_eq ht
    have hstep : step (s.withHost (commandWrites (i :: is) ++ rest) epoch) =
        .next (u.withHost (commandWrites is ++ rest) (epoch + 1)) :=
      (step_cmdWrite_encode i (commandWrites is ++ rest) s epoch).trans (exec_withHost hu _ _)
    rw [List.length_cons, runSteps_succ_of_step is.length hstep, ih hrest, Nat.add_right_comm, Nat.add_assoc]

/-- Settles O45: the steps run the commands, and the commands have left the port and the epoch alone. -/
theorem portRunsCommandsInOrder : Obligations.PortRunsCommandsInOrder := by
  intro is s t ht
  obtain ⟨hport, hepoch⟩ := runCommands_port_epoch_eq ht
  have hend : t.withHost s.port (s.epoch + is.length) = { t with epoch := t.epoch + is.length } := by
    rw [← hport, ← hepoch]
    rfl
  rw [← hend]
  exact runSteps_commandWrites ht s.port s.epoch

end Sys2Proof.Machine

/-! ### Proofs: the register window (spec/20_memory.md R52 to R55, R59, R63) -/

namespace Sys2Proof.Machine

/-! The port. -/

/-- Settles O13: each effect of a step has the oldest request off the port, and a command leaves the port alone. -/
theorem requestsTakeEffectInOrder : Obligations.RequestsTakeEffectInOrder := by
  intro s t ht
  cases step_effect ht with
  | reset | idle | read => rfl
  | command w _ _ hw => exact hw.port_epoch_eq.1

/-! The target of an access. -/

theorem windowReg_eq_none_iff : ∀ offset : Fin 32, windowReg offset = none ↔ offset.val % 4 ≠ 0 := by decide

theorem eq_zero_of_windowReg_cmd : ∀ offset : Fin 32, windowReg offset = some .cmd → offset = 0 := by decide

theorem accessTarget_of_windowReg {offset : Fin 32} {r : WindowReg} (hr : windowReg offset = some r) :
    accessTarget offset 32 = .ok r := by
  rw [accessTarget, if_pos rfl, hr]

theorem accessTarget_of_aligned {offset : Fin 32} (haligned : offset.val % 4 = 0) :
    ∃ r, windowReg offset = some r ∧ accessTarget offset 32 = .ok r := by
  cases hr : windowReg offset with
  | none => exact absurd haligned ((windowReg_eq_none_iff offset).mp hr)
  | some r => exact ⟨r, rfl, accessTarget_of_windowReg hr⟩

theorem accessTarget_of_width_ne {offset : Fin 32} {width : Nat} (hwidth : width ≠ 32) :
    accessTarget offset width = .error .accessWidth := if_neg hwidth

theorem accessTarget_of_misaligned {offset : Fin 32} (halign : offset.val % 4 ≠ 0) :
    accessTarget offset 32 = .error .accessAlignment := by
  rw [accessTarget, if_pos rfl, (windowReg_eq_none_iff offset).mpr halign]

/-! An access, by its target. -/

theorem performEvent_write_of_ok {offset : Fin 32} {width : Nat} {r : WindowReg}
    (ha : accessTarget offset width = .ok r) (w : Word) (s : State) :
    performEvent (.write offset width w) s = hostWrite r w s := by
  rw [performEvent, ha]

theorem performEvent_read_of_ok {offset : Fin 32} {width : Nat} {r : WindowReg}
    (ha : accessTarget offset width = .ok r) (s : State) :
    performEvent (.read offset width) s = .next (hostRead r s) := by
  rw [performEvent, ha]

theorem hostWrite_of_ne_cmd {r : WindowReg} (hr : r ≠ .cmd) (w : Word) (s : State) : hostWrite r w s = .next s := by
  cases r with
  | cmd => exact absurd rfl hr
  | status | digest | reserved => rfl

/-- A write that has a target is performed: every word written to CMD is. -/
theorem hostWrite_next (r : WindowReg) (w : Word) (s : State) : ∃ t, hostWrite r w s = .next t := by
  by_cases hr : r = .cmd
  · obtain ⟨t, ht, -⟩ := performCommand_effect w { s with epoch := s.epoch + 1 }
    exact ⟨t, hr ▸ ht⟩
  · exact ⟨s, hostWrite_of_ne_cmd hr w s⟩

/-- Settles O14: an aligned offset other than 0 has a register, and that is not CMD. -/
theorem readOnlyWritesHaveNoEffect : Obligations.ReadOnlyWritesHaveNoEffect := by
  intro s offset w rest hoffset haligned hport
  obtain ⟨r, hr, ha⟩ := accessTarget_of_aligned haligned
  have hcmd : r ≠ .cmd := fun h => hoffset (eq_zero_of_windowReg_cmd offset (h ▸ hr))
  rw [step_of_port hport, performEvent_write_of_ok ha, hostWrite_of_ne_cmd hcmd]

/-- An access that has a target is performed. -/
theorem step_access_next {s : State} {offset : Fin 32} {width : Nat} {w : Word} {rest : List HostEvent} {r : WindowReg}
    (hport : s.port = .write offset width w :: rest ∨ s.port = .read offset width :: rest)
    (ha : accessTarget offset width = .ok r) : ∃ t, step s = .next t := by
  rcases hport with hport | hport <;> rw [step_of_port hport]
  · rw [performEvent_write_of_ok ha]
    exact hostWrite_next r w _
  · exact ⟨_, performEvent_read_of_ok ha _⟩

/-- An access that has none is refused, for the same reason whether it writes or reads. -/
theorem step_access_refused {s : State} {offset : Fin 32} {width : Nat} {w : Word} {rest : List HostEvent}
    {why : Refusal} (hport : s.port = .write offset width w :: rest ∨ s.port = .read offset width :: rest)
    (ha : accessTarget offset width = .error why) : step s = .refused why := by
  rcases hport with hport | hport <;> rw [step_of_port hport, performEvent, ha]

/-- Settles O17: the three clauses are the three answers of `accessTarget`. -/
theorem onlyAlignedWordAccessesHaveAMeaning : Obligations.OnlyAlignedWordAccessesHaveAMeaning := by
  intro s offset width w rest hport
  refine ⟨?_, fun hwidth => step_access_refused hport (accessTarget_of_width_ne hwidth), ?_⟩
  · rintro ⟨rfl, haligned⟩
    obtain ⟨r, -, ha⟩ := accessTarget_of_aligned haligned
    exact step_access_next hport ha
  · rintro ⟨rfl, halign⟩
    exact step_access_refused hport (accessTarget_of_misaligned halign)

/-! What a read returns. -/

theorem readReg_withPort (r : WindowReg) (s : State) (port : List HostEvent) :
    readReg r { s with port := port } = readReg r s := by
  cases r <;> rfl

/-- Only the draw of offset 0x1C depends on the reads before (R54). -/
theorem readReg_hostRead {r : WindowReg} (hr : r ≠ .reserved) (r' : WindowReg) (s : State) :
    readReg r (hostRead r' s) = readReg r s := by
  cases r with
  | reserved => exact absurd rfl hr
  | cmd | status | digest => rfl

/-- Settles O15: a read appends its value to the replies; of the effects of a step only a reset and a command reach what
a register but 0x1C reads as. -/
theorem readsHaveNoSideEffect : Obligations.ReadsHaveNoSideEffect := by
  refine ⟨?_, fun s => ⟨rfl, rfl, fun k => rfl, rfl⟩, ?_⟩
  · intro s offset rest r hport hr
    refine ⟨if r = .reserved then s.reservedReads + 1 else s.reservedReads, ?_, fun h => if_pos h,
      fun h => if_neg h⟩
    rw [step_of_port hport, performEvent_read_of_ok (accessTarget_of_windowReg hr), hostRead, readReg_withPort]
  · intro s t r ht hr hreset hcmd
    cases step_effect ht with
    | reset hhead => exact absurd hhead hreset
    | command w _ hhead => exact absurd hhead (hcmd w)
    | idle => exact readReg_withPort r s _
    | read r' => exact (readReg_hostRead hr r' _).trans (readReg_withPort r s _)

/-! The window on the platform's bus. -/

theorem windowOffset_add (base : Nat) (o : Fin 32) : windowOffset base (base + o.val) = some o := by
  simp [windowOffset]

theorem windowOffset_of_outside {base addr : Nat} (haddr : addr < base ∨ base + 32 ≤ addr) :
    windowOffset base addr = none := dif_neg (by omega)

/-- Settles O18: an access is accepted by its offset, which is the address less the base; the registers are computed. -/
theorem windowIsAtEngineBase : Obligations.WindowIsAtEngineBase := by
  refine ⟨fun base o => ⟨windowOffset_add base o, fun s width w => ?_⟩, fun base addr haddr s width w => ?_,
    rfl, rfl, rfl, by decide⟩
  · simp [State.accept, busEvent, windowOffset_add]
  · simp [State.accept, busEvent, windowOffset_of_outside haddr]

/-! Several instances. -/

/-- A step among several engines is that of the one named, put back in its place; where there is none, nothing. -/
theorem stepInstance_cases {k : Nat} {engines after : List State} (h : stepInstance k engines = .next after) :
    (engines[k]? = none ∧ after = engines) ∨
      ∃ s t, engines[k]? = some s ∧ step s = .next t ∧ after = engines.set k t := by
  unfold stepInstance at h
  split at h
  next hnone =>
    cases h
    exact .inl ⟨hnone, rfl⟩
  next s hs =>
    split at h
    next t ht =>
      cases h
      exact .inr ⟨s, t, hs, ht, rfl⟩
    all_goals cases h

/-- Settles O19: the step puts one state back, at the place of the engine that made it. -/
theorem instancesShareNoState : Obligations.InstancesShareNoState := by
  intro k engines after h
  obtain ⟨hnone, rfl⟩ | ⟨s, t, hs, ht, rfl⟩ := stepInstance_cases h
  · exact ⟨rfl, fun _ _ => rfl, fun s t hs => absurd (hnone.symm.trans hs) nofun⟩
  · refine ⟨List.length_set, fun j hj => List.getElem?_set_ne hj.symm, fun s' t' hs' ht' => ?_⟩
    cases hs.symm.trans hs'
    cases ht.symm.trans ht'
    obtain ⟨hk, -⟩ := List.getElem?_eq_some_iff.mp hs
    exact List.getElem?_set_self hk

end Sys2Proof.Machine

/-! ### Proofs: the bits of a legal word (spec/30_encoding.md R71 to R76)

A statement about bits `[start + len - 1 : start]` is arithmetic on the number they write. The fields cover the word, so
what R73 to R76 ask of a word they ask of its fields. -/

namespace Sys2Proof

theorem toNat_extractLsb'_eq_div_mod (w : Word) (start len : Nat) :
    (w.extractLsb' start len).toNat = w.toNat / 2 ^ start % 2 ^ len := by
  rw [BitVec.extractLsb'_toNat, Nat.shiftRight_eq_div_pow]

theorem fieldsOf_injective : Function.Injective fieldsOf := by
  intro v w h
  simp only [fieldsOf, opField, nField, lane, CmdFields.mk.injEq, ← BitVec.toNat_inj,
    toNat_extractLsb'_eq_div_mod] at h ⊢
  omega

section
variable (w : Word)

theorem extract_26_6_eq_iff :
    w.extractLsb' 26 6 = 0b001000#6 ↔ opField w = 2#4 ∧ w.extractLsb' 26 2 = 0#2 := by
  simp only [opField, ← BitVec.toNat_inj, toNat_extractLsb'_eq_div_mod, BitVec.toNat_ofNat]
  omega

theorem extract_1_31_eq_iff :
    w.extractLsb' 1 31 = 0x08000000#31 ↔ opField w = 1#4 ∧ w.extractLsb' 1 27 = 0#27 := by
  simp only [opField, ← BitVec.toNat_inj, toNat_extractLsb'_eq_div_mod, BitVec.toNat_ofNat]
  omega

theorem eq_opcode_word_iff (op : BitVec 4) : w = op ++ 0#28 ↔ opField w = op ∧ w.extractLsb' 0 28 = 0#28 := by
  simp only [opField, ← BitVec.toNat_inj, toNat_extractLsb'_eq_div_mod, BitVec.toNat_append, BitVec.toNat_ofNat,
    Nat.zero_mod, Nat.or_zero, Nat.shiftLeft_eq]
  omega

theorem extract_0_28_eq_zero_iff :
    w.extractLsb' 0 28 = 0#28 ↔
      w.extractLsb' 26 2 = 0#2 ∧ nField w = 0#2 ∧ lane w 2 = 0#8 ∧ lane w 1 = 0#8 ∧ lane w 0 = 0#8 := by
  simp only [nField, lane, ← BitVec.toNat_inj, toNat_extractLsb'_eq_div_mod, BitVec.toNat_ofNat]
  omega

theorem extract_1_27_eq_zero_iff :
    w.extractLsb' 1 27 = 0#27 ↔
      w.extractLsb' 26 2 = 0#2 ∧ nField w = 0#2 ∧ lane w 2 = 0#8 ∧ lane w 1 = 0#8 ∧
        (lane w 0 = 0#8 ∨ lane w 0 = 1#8) := by
  simp only [nField, lane, ← BitVec.toNat_inj, toNat_extractLsb'_eq_div_mod, BitVec.toNat_ofNat]
  omega

theorem opField_cases :
    opField w = 0#4 ∨ opField w = 1#4 ∨ opField w = 2#4 ∨ opField w = 3#4 ∨ 4 ≤ (opField w).toNat := by
  generalize opField w = op
  revert op
  decide

theorem nField_cases : nField w = 0#2 ∨ nField w = 1#2 ∨ nField w = 2#2 ∨ nField w = 3#2 := by
  generalize nField w = n
  revert n
  decide

/-- FEED's data lanes at index `N` or above are 0, lane by lane (R74). -/
def UnusedLanesZero : Prop := ∀ k, k < 3 → (nField w).toNat ≤ k → lane w k = 0#8

theorem unusedLanesZero_iff :
    UnusedLanesZero w ↔ ((nField w).toNat ≤ 0 → lane w 0 = 0#8) ∧ ((nField w).toNat ≤ 1 → lane w 1 = 0#8) ∧
      ((nField w).toNat ≤ 2 → lane w 2 = 0#8) := by
  refine ⟨fun h => ⟨h 0 (by decide), h 1 (by decide), h 2 (by decide)⟩, fun ⟨h0, h1, h2⟩ k hk => ?_⟩
  interval_cases k
  · exact h0
  · exact h1
  · exact h2

/-- R77's test of the unused lanes, whose one direction is `lanes_shifted_eq_zero`: the bits of an unused lane are among
those the shift keeps. -/
theorem shifted_lanes_eq_zero_iff :
    w.extractLsb' 0 24 >>> (8 * (nField w).toNat) = 0#24 ↔ UnusedLanesZero w := by
  refine ⟨fun h k hk hn => ?_, lanes_shifted_eq_zero⟩
  ext i hi
  have hbit := congrArg (·.getLsbD (8 * k + i - 8 * (nField w).toNat)) h
  have hidx : 8 * (nField w).toNat + (8 * k + i - 8 * (nField w).toNat) = 8 * k + i := by omega
  have hlow : 8 * k + i < 24 := by omega
  simpa [hidx, hlow, hi, lane] using hbit

/-- The field check's test of the unused lanes. -/
theorem unusedLanesZero_fieldsOf : (fieldsOf w).unusedLanesZero = true ↔ UnusedLanesZero w := by
  have hcheck (f : CmdFields) : f.unusedLanesZero = true ↔
      (f.n.toNat ≤ 0 → f.b0 = 0#8) ∧ (f.n.toNat ≤ 1 → f.b1 = 0#8) ∧ (f.n.toNat ≤ 2 → f.b2 = 0#8) := by
    simp only [CmdFields.unusedLanesZero, Bool.and_eq_true, Bool.or_eq_true, decide_eq_true_eq, beq_iff_eq,
      or_iff_not_imp_left, not_lt, and_assoc, BitVec.ofNat_eq_ofNat]
  exact (hcheck (fieldsOf w)).trans (unusedLanesZero_iff w).symm

/-- The bits of a legal word, by its opcode (R73 to R76). -/
def LegalWord : Prop :=
  (opField w = 0#4 ∧ w.extractLsb' 0 28 = 0#28) ∨ (opField w = 1#4 ∧ w.extractLsb' 1 27 = 0#27) ∨
    (opField w = 2#4 ∧ w.extractLsb' 26 2 = 0#2 ∧ UnusedLanesZero w) ∨ (opField w = 3#4 ∧ w.extractLsb' 0 28 = 0#28)

theorem not_legalWord_of_reserved {w : Word} (h : 4 ≤ (opField w).toNat) : ¬ LegalWord w := by
  rintro (⟨hop, -⟩ | ⟨hop, -⟩ | ⟨hop, -⟩ | ⟨hop, -⟩) <;> exact absurd h (by rw [hop]; decide)

theorem wellFormed_eq_false_of_reserved {f : CmdFields} (h : 4 ≤ f.op.toNat) : f.wellFormed = false := by
  unfold CmdFields.wellFormed
  split
  · omega
  · omega
  · omega
  · omega
  · exact Bool.and_false _

theorem wellFormed_fieldsOf_iff : (fieldsOf w).wellFormed = true ↔ LegalWord w := by
  obtain h | h | h | h | h := opField_cases w
  · simp [CmdFields.wellFormed, fieldsOf, LegalWord, h, extract_0_28_eq_zero_iff, and_assoc]
  · simp [CmdFields.wellFormed, fieldsOf, LegalWord, h, extract_1_27_eq_zero_iff, and_assoc]
  · have hop : (fieldsOf w).op = 2#4 := h
    have hrsv : (fieldsOf w).rsv = w.extractLsb' 26 2 := rfl
    simp [CmdFields.wellFormed, LegalWord, h, hop, hrsv, unusedLanesZero_fieldsOf]
  · simp [CmdFields.wellFormed, fieldsOf, LegalWord, h, extract_0_28_eq_zero_iff, and_assoc]
  · simp [not_legalWord_of_reserved h, wellFormed_eq_false_of_reserved (f := fieldsOf w) h]

end

end Sys2Proof

/-! ### Proofs: the decoder and the encoder are inverse on the legal words (spec/30_encoding.md R71 to R77)

A word that decodes to a command passed one of R77's four tests. Each test says what the bits are, and so that they are
the command's own. -/

namespace Sys2Proof

/-- R77 answers with a command on these tests and no other. -/
theorem decode_eq_ok_cases {w : Word} {i : Instr} (h : decode w = .ok i) :
    (w = 0x00000000#32 ∧ i = .nop) ∨
      (w.extractLsb' 1 31 = 0x08000000#31 ∧ i = .init (Alg.ofBit (w.getLsbD 0))) ∨
      (w.extractLsb' 26 6 = 0b001000#6 ∧ UnusedLanesZero w ∧ i = feedForm w) ∨ (w = 0x30000000#32 ∧ i = .final) := by
  unfold decode at h
  split_ifs at h with h0 h1 h2 h3 h4 <;> cases h
  · exact .inl ⟨h0, rfl⟩
  · exact .inr (.inl ⟨h1, rfl⟩)
  · exact .inr (.inr (.inl ⟨h2, (shifted_lanes_eq_zero_iff w).mp h3, rfl⟩))
  · exact .inr (.inr (.inr ⟨h4, rfl⟩))

theorem decode_feed {w : Word} (h : w.extractLsb' 26 6 = 0b001000#6) (hlanes : UnusedLanesZero w) :
    decode w = .ok (feedForm w) :=
  (decode_op2 h).trans (if_pos ((shifted_lanes_eq_zero_iff w).mpr hlanes))

theorem legalWord_iff_decode (w : Word) : LegalWord w ↔ ∃ i, decode w = .ok i := by
  constructor
  · rintro (hnop | hinit | ⟨hop, hrsv, hlanes⟩ | hfinal)
    · exact ⟨.nop, by rw [(eq_opcode_word_iff w 0#4).mpr hnop]; rfl⟩
    · exact ⟨_, decode_init ((extract_1_31_eq_iff w).mpr hinit)⟩
    · exact ⟨_, decode_feed ((extract_26_6_eq_iff w).mpr ⟨hop, hrsv⟩) hlanes⟩
    · exact ⟨.final, by rw [(eq_opcode_word_iff w 3#4).mpr hfinal]; rfl⟩
  · rintro ⟨i, hi⟩
    obtain ⟨rfl, -⟩ | ⟨hinit, -⟩ | ⟨hfeed, hlanes, -⟩ | ⟨rfl, -⟩ := decode_eq_ok_cases hi
    · exact .inl (by decide)
    · exact .inr (.inl ((extract_1_31_eq_iff w).mp hinit))
    · obtain ⟨hop, hrsv⟩ := (extract_26_6_eq_iff w).mp hfeed
      exact .inr (.inr (.inl ⟨hop, hrsv, hlanes⟩))
    · exact .inr (.inr (.inr (by decide)))

theorem decode_error_iff (w : Word) : (∃ e, decode w = .error e) ↔ ¬ LegalWord w := by
  rw [legalWord_iff_decode]
  cases decode w <;> simp

@[simp] theorem fieldsOf_feedWord (n : BitVec 2) (b2 b1 b0 : Byte) :
    fieldsOf (feedWord n b2 b1 b0) = ⟨2#4, 0#2, n, b2, b1, b0⟩ := by
  obtain ⟨hop, hrsv⟩ := (extract_26_6_eq_iff _).mp (opcode_feedWord n b2 b1 b0)
  simp [fieldsOf, hop, hrsv]

/-- A word with FEED's opcode is put together again from its fields. -/
theorem feedWord_fields {w : Word} (h : w.extractLsb' 26 6 = 0b001000#6) :
    feedWord (nField w) (lane w 2) (lane w 1) (lane w 0) = w := by
  obtain ⟨hop, hrsv⟩ := (extract_26_6_eq_iff w).mp h
  apply fieldsOf_injective
  rw [fieldsOf_feedWord, ← hop, ← hrsv]
  rfl

theorem encode_feed0 : encode .feed0 = feedWord 0 0 0 0 := by decide

/-- FEED drops no bit: the lanes it does not absorb are 0. -/
theorem encode_feedForm {w : Word} (h : w.extractLsb' 26 6 = 0b001000#6) (hlanes : UnusedLanesZero w) :
    encode (feedForm w) = w := by
  obtain ⟨h0, h1, h2⟩ := (unusedLanesZero_iff w).mp hlanes
  have hw := feedWord_fields h
  obtain hn | hn | hn | hn := nField_cases w <;> rw [hn] at hw h0 h1 h2
  · rw [h0 (by decide), h1 (by decide), h2 (by decide)] at hw
    simpa [feedForm, hn, encode_feed0] using hw
  · rw [h1 (by decide), h2 (by decide)] at hw
    simpa [feedForm, hn, encode_feed1] using hw
  · rw [h2 (by decide)] at hw
    simpa [feedForm, hn, encode_feed2] using hw
  · simpa [feedForm, hn, encode_feed3] using hw

/-- INIT drops no bit: below its 31 fixed bits stands `ALG`. -/
theorem encode_init {w : Word} (h : w.extractLsb' 1 31 = 0x08000000#31) :
    encode (.init (Alg.ofBit (w.getLsbD 0))) = w := by
  have hword : w = 0x10000000#32 ∨ w = 0x10000001#32 := by
    simp only [← BitVec.toNat_inj, toNat_extractLsb'_eq_div_mod, BitVec.toNat_ofNat] at h ⊢
    omega
  obtain rfl | rfl := hword <;> rfl

theorem encode_of_decode {w : Word} {i : Instr} (hi : decode w = .ok i) : encode i = w := by
  obtain ⟨rfl, rfl⟩ | ⟨hinit, rfl⟩ | ⟨hfeed, hlanes, rfl⟩ | ⟨rfl, rfl⟩ := decode_eq_ok_cases hi
  · rfl
  · exact encode_init hinit
  · exact encode_feedForm hfeed hlanes
  · rfl

/-- Settles O1, by the cases of the command: the decoder reads back the fields the encoder placed. -/
theorem decodeOfEncode : Obligations.DecodeOfEncode := decode_encode

/-- Settles O2, by R77's tests: each says the whole word but for the operands, which the command carries. -/
theorem encodeOfDecode : Obligations.EncodeOfDecode := fun _ _ => encode_of_decode

/-- Settles O5: the field check and the decoder both ask for the bits of R73 to R76. -/
theorem fieldCheckAgreesWithDecode : Obligations.FieldCheckAgreesWithDecode :=
  fun w => (wellFormed_fieldsOf_iff w).trans (legalWord_iff_decode w)

end Sys2Proof

/-! ### Proofs: the opcode table partitions the legal words (spec/30_encoding.md R77)

Two rows that hold one word agree on the bits both fix, and no two rows of the table do. A word in a row has the row's
high bits, which make it legal. -/

namespace Sys2Proof

theorem eq_of_agree_on_masks : ∀ r ∈ opcodeTable, ∀ r' ∈ opcodeTable,
    r.value &&& r'.mask = r'.value &&& r.mask → r = r' := by decide

theorem row_unique {w : Word} {r r' : OpcodeRow} (hr : r ∈ opcodeTable) (hr' : r' ∈ opcodeTable)
    (h : r.matches w = true) (h' : r'.matches w = true) : r = r' := by
  rw [OpcodeRow.matches, beq_iff_eq] at h h'
  refine eq_of_agree_on_masks r hr r' hr' ?_
  rw [← h, ← h', BitVec.and_assoc, BitVec.and_assoc, BitVec.and_comm r.mask]

theorem opcodeRow_of_decode {w : Word} {i : Instr} (h : decode w = .ok i) :
    (opcodeRow i).matches w = true ∧ opcodeRow i ∈ opcodeTable := by
  rw [← encode_of_decode h]
  cases i with
  | nop => exact Laws.EncodingRow.nop
  | init a => exact Laws.EncodingRow.init a
  | feed0 => exact Laws.EncodingRow.feed0
  | feed1 b0 => exact Laws.EncodingRow.feed1 b0
  | feed2 b0 b1 => exact Laws.EncodingRow.feed2 b0 b1
  | feed3 b0 b1 b2 => exact Laws.EncodingRow.feed3 b0 b1 b2
  | final => exact Laws.EncodingRow.final

/-- A row that fixes the bits from `k` on fixes the number they write. -/
theorem div_eq_of_matches {w mask v : Word} {k : Nat} (hmask : mask = BitVec.allOnes 32 <<< k)
    (h : OpcodeRow.matches ⟨mask, v⟩ w = true) : w.toNat / 2 ^ k = v.toNat / 2 ^ k := by
  have hand : w &&& mask = v := beq_iff_eq.mp h
  have hshift : w >>> k = v >>> k := by
    rw [← hand, hmask]
    ext i hi
    simp only [BitVec.getElem_ushiftRight, BitVec.getLsbD_and, BitVec.getLsbD_shiftLeft, BitVec.getLsbD_allOnes]
    by_cases hin : k + i < 32
    · simp [hin, hi]
    · simp [BitVec.getLsbD_of_ge w (k + i) (Nat.le_of_not_lt hin)]
  simpa [← Nat.shiftRight_eq_div_pow] using congrArg BitVec.toNat hshift

theorem eq_value_of_matches {w v : Word} (h : OpcodeRow.matches ⟨0xFFFFFFFF, v⟩ w = true) : w = v :=
  BitVec.eq_of_toNat_eq (by simpa using div_eq_of_matches (k := 0) (by decide) h)

/-- FEED's row for `N = n` fixes the bits from `8n` on: the opcode, `N` and the unused lanes (R74). -/
theorem legalWord_of_feed_row {w : Word} {n : Nat} (hn : n < 4)
    (h : w.toNat / 2 ^ (8 * n) = (0x20000000 + n * 2 ^ 24) / 2 ^ (8 * n)) : LegalWord w := by
  refine .inr (.inr (.inl ⟨?_, ?_, (unusedLanesZero_iff w).mpr ?_⟩)) <;>
    simp only [opField, nField, lane, ← BitVec.toNat_inj, toNat_extractLsb'_eq_div_mod, BitVec.toNat_ofNat] <;>
    interval_cases n <;> omega

theorem legalWord_of_matches {w : Word} {r : OpcodeRow} (hr : r ∈ opcodeTable) (h : r.matches w = true) :
    LegalWord w := by
  simp only [opcodeTable, List.mem_cons, List.not_mem_nil, or_false] at hr
  obtain rfl | rfl | rfl | rfl | rfl | rfl | rfl := hr
  · rw [eq_value_of_matches h]
    exact .inl (by decide)
  · have hdiv : w.toNat / 2 ^ 1 = 0x08000000 := div_eq_of_matches (by decide) h
    refine .inr (.inl ((extract_1_31_eq_iff w).mp (BitVec.eq_of_toNat_eq ?_)))
    rw [toNat_extractLsb'_eq_div_mod, hdiv]
    rfl
  · exact legalWord_of_feed_row (n := 0) (by decide) (div_eq_of_matches (by decide) h)
  · exact legalWord_of_feed_row (n := 1) (by decide) (div_eq_of_matches (by decide) h)
  · exact legalWord_of_feed_row (n := 2) (by decide) (div_eq_of_matches (by decide) h)
  · exact legalWord_of_feed_row (n := 3) (by decide) (div_eq_of_matches (by decide) h)
  · rw [eq_value_of_matches h]
    exact .inr (.inr (.inr (by decide)))

theorem filter_matches_of_decode {w : Word} {i : Instr} (h : decode w = .ok i) :
    (opcodeTable.filter fun r => r.matches w) = [opcodeRow i] := by
  obtain ⟨hmatch, hmem⟩ := opcodeRow_of_decode h
  have hsame : ∀ r ∈ opcodeTable, r.matches w = decide (r = opcodeRow i) := by
    intro r hr
    rw [Bool.eq_iff_iff, decide_eq_true_eq]
    exact ⟨fun h' => row_unique hr hmem h' hmatch, fun h' => h' ▸ hmatch⟩
  rw [List.filter_congr hsame]
  cases i <;> rfl

theorem filter_matches_of_error {w : Word} {e : IllegalWord} (h : decode w = .error e) :
    (opcodeTable.filter fun r => r.matches w) = [] :=
  List.filter_eq_nil_iff.mpr fun _ hr hmatch => (decode_error_iff w).mp ⟨e, h⟩ (legalWord_of_matches hr hmatch)

/-- `N` selects a FEED that absorbs the first `N` lanes (R72). -/
theorem feedForm_operands (w : Word) : Machine.isFeed (feedForm w) = true ∧
    Machine.operandBytes (feedForm w) = [lane w 0, lane w 1, lane w 2].take (nField w).toNat := by
  obtain hn | hn | hn | hn := nField_cases w <;> simp [feedForm, hn, Machine.isFeed, Machine.operandBytes]

/-- Settles O3: the branches by the laws of the decoder, the rows by whether the word decodes. -/
theorem decodeIsTotalAndPartitions : Obligations.DecodeIsTotalAndPartitions := by
  intro w
  refine ⟨fun h => h ▸ rfl, fun h => ?_, fun h hlanes => ?_, fun h hlanes => ?_, fun h => h ▸ rfl,
    fun h0 h1 h2 h3 => ⟨_, decode_illegal h0 h1 h2 h3⟩, ?_⟩
  · rw [decode_init h]
    cases w.getLsbD 0 <;> rfl
  · exact ⟨feedForm w, (decode_op2 h).trans (if_pos hlanes), feedForm_operands w⟩
  · exact ⟨_, (decode_op2 h).trans (if_neg hlanes)⟩
  · cases hd : decode w with
    | ok i => simp [filter_matches_of_decode hd]
    | error e => simp [filter_matches_of_error hd]

end Sys2Proof

/-! ### Proofs: the illegal words and their fault (spec/30_encoding.md R78) -/

namespace Sys2Proof.Machine

/-- R78's list, by the opcode. -/
theorem not_legalWord_iff (w : Word) : ¬ LegalWord w ↔
    4 ≤ (opField w).toNat ∨ (opField w = 0#4 ∧ w.extractLsb' 0 28 ≠ 0#28) ∨
      (opField w = 1#4 ∧ w.extractLsb' 1 27 ≠ 0#27) ∨
      (opField w = 2#4 ∧ (w.extractLsb' 26 2 ≠ 0#2 ∨ ∃ k, k < 3 ∧ (nField w).toNat ≤ k ∧ lane w k ≠ 0#8)) ∨
      (opField w = 3#4 ∧ w.extractLsb' 0 28 ≠ 0#28) := by
  obtain h | h | h | h | h := opField_cases w
  · simp [LegalWord, h]
  · simp [LegalWord, h]
  · simp [LegalWord, h, UnusedLanesZero, imp_iff_not_or]
  · simp [LegalWord, h]
  · exact iff_of_true (not_legalWord_of_reserved h) (.inl h)

theorem performCommand_of_error {w : Word} {e : IllegalWord} {s : State} (h : decode w = .error e)
    (hs : s.phase ≠ .faulted) :
    performCommand w s = .next { s with phase := .faulted, fcode := some .illegalCmd } := by
  rw [performCommand, h]
  exact runCommand_error (body := fun _ => .error .illegalCmd) hs rfl

theorem performCommand_of_faulted {s : State} (hs : s.phase = .faulted) (w : Word) : performCommand w s = .next s := by
  rw [performCommand]
  cases decode w with
  | ok i => exact exec_of_faulted hs i
  | error e => exact runCommand_faulted hs

/-- Settles O4: an illegal word has not the bits of R73 to R76, and its fault stands behind the gate of FAULTED. -/
theorem illegalWordsAndTheirFault : Obligations.IllegalWordsAndTheirFault :=
  fun w => ⟨(decode_error_iff w).trans (not_legalWord_iff w),
    fun _ _ h => ⟨performCommand_of_error h, fun hs => performCommand_of_faulted hs w⟩⟩

end Sys2Proof.Machine

/-! ### Proofs: the assembler's lines and pseudo-instructions (spec/30_encoding.md R79, R80)

FEEDS cuts its sequence into groups of three; each claim about the groups is an induction along that cut. -/

namespace Sys2Proof.Machine

theorem absorbedBytes_feedGroups (s : List Byte) : absorbedBytes (feedGroups s) = s := by
  induction s using feedGroups.induct with
  | case1 | case2 | case3 => rfl
  | case4 b0 b1 b2 rest ih => exact congrArg ([b0, b1, b2] ++ ·) ih

theorem isFeed_of_mem_feedGroups {s : List Byte} {i : Instr} (hi : i ∈ feedGroups s) : isFeed i = true := by
  induction s using feedGroups.induct with
  | case1 => cases hi
  | case2 | case3 => rw [List.mem_singleton.mp hi]; rfl
  | case4 b0 b1 b2 rest ih =>
    obtain rfl | hrest := List.mem_cons.mp hi
    · rfl
    · exact ih hrest

theorem length_feedGroups (s : List Byte) : (feedGroups s).length = (s.length + 2) / 3 := by
  induction s using feedGroups.induct with
  | case1 | case2 | case3 => simp [feedGroups]
  | case4 b0 b1 b2 rest ih =>
    simp only [feedGroups, List.length_cons, ih]
    omega

/-- Only the group that ends the sequence may be short. -/
theorem length_operandBytes_feedGroups {s : List Byte} {k : Nat} {i : Instr} (hi : (feedGroups s)[k]? = some i)
    (hk : k + 1 < (feedGroups s).length) : (operandBytes i).length = 3 := by
  induction s using feedGroups.induct generalizing k with
  | case1 => cases hi
  | case2 | case3 => exact absurd hk (by simp [feedGroups])
  | case4 b0 b1 b2 rest ih =>
    cases k with
    | zero =>
      cases hi
      rfl
    | succ k => exact ih hi (Nat.lt_of_succ_lt_succ hk)

/-- Settles O8: the empty sequence is one FEED with no byte, any other is its groups. -/
theorem feedsExpansion : Obligations.FeedsExpansion := by
  refine ⟨fun s => ?_, rfl⟩
  cases s with
  | nil => exact ⟨rfl, by simp [feeds, isFeed], fun k i _ hk => absurd hk (by simp [feeds]), rfl, fun _ => rfl⟩
  | cons b bs =>
    exact ⟨absorbedBytes_feedGroups _, fun _ => isFeed_of_mem_feedGroups, fun _ _ => length_operandBytes_feedGroups,
      length_feedGroups _, fun _ => rfl⟩

/-! The lines. -/

theorem byteOperandOk_toNat (b : Byte) : byteOperandOk b.toNat = true := decide_eq_true b.isLt

theorem toBytes_map_toNat (bs : List Byte) : toBytes (bs.map BitVec.toNat) = bs := by
  simp [toBytes, Function.comp_def]

theorem assembleLine_feed {bs : List Byte} (h : bs.length ≤ 3) :
    assembleLine (.feed (bs.map BitVec.toNat)) = (feedOf bs).map fun i => [i] := by
  have hwf : (SourceLine.feed (bs.map BitVec.toNat)).wellFormed = true := by
    simp [SourceLine.wellFormed, h, byteOperandOk_toNat]
  rw [assembleLine, if_pos hwf]
  simp only [toBytes_map_toNat]

theorem assembleLine_feed_none {bs : List Nat} (h : 3 < bs.length ∨ ∃ b ∈ bs, 255 < b) :
    assembleLine (.feed bs) = none := by
  refine if_neg fun hwf => ?_
  rw [SourceLine.wellFormed, Bool.and_eq_true, decide_eq_true_eq, List.all_eq_true] at hwf
  obtain ⟨hlen, hall⟩ := hwf
  obtain hlong | ⟨b, hb, hbig⟩ := h
  · exact absurd hlen (Nat.not_le_of_lt hlong)
  · exact absurd (of_decide_eq_true (hall b hb)) (by omega)

/-- Settles O7: a FEED line within R79's bounds is the FEED of its bytes, and one beyond them is refused. -/
theorem assemblerLinesAndWords : Obligations.AssemblerLinesAndWords := by
  refine ⟨fun b0 b1 b2 => ⟨rfl, rfl, rfl, rfl, rfl, rfl, rfl, rfl, assembleLine_feed (bs := [b0]) (by simp), ?_,
    assembleLine_feed (bs := [b0, b1]) (by simp), ?_, assembleLine_feed (bs := [b0, b1, b2]) (by simp), ?_, rfl, rfl⟩,
    fun bs => assembleLine_feed_none⟩ <;>
  simp [encode, inLane]

end Sys2Proof.Machine

/-! ### Proofs: the bit counter (spec/40_bitcounter.md R101, R103, R104, spec/10_state.md R34)

The counter is a number of two digits in base 2^32, or of eight in base 256. `AbsorbByte` adds 512 to it when a block is
full, so after `n` bytes it holds the bits of `n / 64` blocks; the run of the FEEDs is an induction on that. -/

namespace Sys2Proof.Machine

/-! The words and the bytes of the counter. -/

/-- The low word of the sum wraps (R101). -/
theorem toNat_counterAdd_low (n : Word) (cnt : Vector Word 2) :
    (counterAdd n cnt)[0].toNat = (cnt[0].toNat + n.toNat) % 2 ^ 32 := BitVec.toNat_ofNat _ _

/-- The high word takes the carry of the low one (R101). -/
theorem toNat_counterAdd_high (n : Word) (cnt : Vector Word 2) :
    (counterAdd n cnt)[1].toNat = (cnt[1].toNat + (cnt[0].toNat + n.toNat) / 2 ^ 32) % 2 ^ 32 := by
  rw [← Nat.shiftRight_eq_div_pow]
  exact BitVec.toNat_ofNat _ _

/-- Settles O46: the two words are the sum's digits in base 2^32, and the value is the sum mod 2^64. -/
theorem counterAddIsMod64 : Obligations.CounterAddIsMod64 := fun n cnt =>
  ⟨toNat_counterAdd_low n cnt, toNat_counterAdd_high n cnt, counterValue_counterAdd n cnt⟩

/-- `CounterToBytes`, byte by byte (R103). -/
theorem getElem?_counterToBytes (cnt : Vector Word 2) (k : Fin 8) :
    (counterToBytes cnt)[k.val]? = some ((cnt[k.val / 4] >>> (8 * (k.val % 4))).setWidth 8) := by
  fin_cases k <;> rfl

/-- A digit of the counter in base 256 is a digit of one of its words: `256 ^ (k + 1)` divides 2^32 for the digits of
the low word, and 2^32 divides `256 ^ k` for those of the high word. -/
theorem counterValue_digit (cnt : Vector Word 2) (k : Fin 8) :
    counterValue cnt / 256 ^ k.val % 256 = cnt[k.val / 4].toNat / 2 ^ (8 * (k.val % 4)) % 256 := by
  have hlow : cnt[0].toNat < 2 ^ 32 := cnt[0].isLt
  unfold counterValue
  fin_cases k <;> norm_num <;> omega

/-- Settles O47: each byte is a digit of its word in base 256, which is the counter's digit. -/
theorem counterBytesAreLittleEndian : Obligations.CounterBytesAreLittleEndian := by
  intro cnt
  refine ⟨counterToBytes_length cnt, fun k => ?_⟩
  have hbyte : ((counterToBytes cnt)[k.val]?).map BitVec.toNat =
      some (cnt[k.val / 4].toNat / 2 ^ (8 * (k.val % 4)) % 256) := by
    rw [getElem?_counterToBytes, Option.map_some, BitVec.toNat_setWidth, BitVec.toNat_ushiftRight,
      Nat.shiftRight_eq_div_pow]
  exact ⟨hbyte, hbyte.trans (congrArg some (counterValue_digit cnt k).symm)⟩

/-! The counter while a message is absorbed. -/

/-- In ABSORB with `n` bytes absorbed since INIT: FILL counts those behind the last whole block, and the counter the
bits of the whole blocks, mod 2^64 (R104). -/
def Absorbed (n : Nat) (s : State) : Prop :=
  s.phase = .absorb ∧ s.fill.val = n % 64 ∧ counterValue s.cnt = 512 * (n / 64) % 2 ^ 64

theorem absorbed_initState (a : Alg) (s : State) : Absorbed 0 (initState a s) := ⟨rfl, rfl, rfl⟩

/-- A byte that leaves room does not touch the counter; one that fills the block adds its 512 bits (R146). -/
theorem Absorbed.absorbByte {n : Nat} {b : Byte} {s t : State} (hs : Absorbed n s) (ht : absorbByte b s = .ok t) :
    Absorbed (n + 1) t := by
  obtain ⟨hphase, hfill, hcnt⟩ := hs
  by_cases room : s.fill.val + 1 < 64
  · cases (absorbByte_room room).symm.trans ht
    refine ⟨hphase, ?_, ?_⟩
    · change s.fill.val + 1 = (n + 1) % 64
      omega
    · have hblocks : (n + 1) / 64 = n / 64 := by omega
      rw [hblocks]
      exact hcnt
  · obtain ⟨h, -, hfull⟩ := absorbByte_full (b := b) (s := s) (by omega)
    cases hfull.symm.trans ht
    refine ⟨hphase, ?_, ?_⟩
    · change 0 = (n + 1) % 64
      omega
    · have hblocks : (n + 1) / 64 = n / 64 + 1 := by omega
      calc counterValue (counterAdd 512 s.cnt)
        _ = (counterValue s.cnt + 512) % 2 ^ 64 := counterValue_counterAdd 512 s.cnt
        _ = 512 * ((n + 1) / 64) % 2 ^ 64 := by rw [hcnt, hblocks, Nat.mod_add_mod, Nat.mul_succ]

theorem Absorbed.absorbBytes {n : Nat} {bs : List Byte} {s t : State} (hs : Absorbed n s)
    (ht : absorbBytes bs s = .ok t) : Absorbed (n + bs.length) t := by
  induction bs generalizing n s with
  | nil =>
    cases ht
    exact hs
  | cons b bs ih =>
    obtain ⟨u, hu, -⟩ := absorbByte_ok b s
    rw [absorbBytes_cons hu] at ht
    rw [List.length_cons, Nat.add_comm bs.length, ← Nat.add_assoc]
    exact ih (hs.absorbByte hu) ht

/-- In ABSORB a FEED or NOP absorbs its operand bytes (R143, R145). -/
theorem Absorbed.exec {n : Nat} {i : Instr} {s t : State} (hs : Absorbed n s) (hi : isFeedOrNop i = true)
    (ht : exec i s = .next t) : Absorbed (n + (operandBytes i).length) t := by
  have hfeed (hi : isFeed i = true) : Absorbed (n + (operandBytes i).length) t := by
    have hphase : s.phase = .absorb := hs.1
    obtain ⟨u, hu, -⟩ := absorbBytes_ok (operandBytes i) s
    cases (exec_feed_eq hi hphase hu).symm.trans ht
    exact hs.absorbBytes hu
  cases i with
  | nop =>
    cases (exec_nop_eq s).symm.trans ht
    exact hs
  | feed0 | feed1 | feed2 | feed3 => exact hfeed rfl
  | init | final => cases hi

theorem Absorbed.runCommands {n : Nat} {is : List Instr} {s t : State} (hs : Absorbed n s)
    (his : ∀ i ∈ is, isFeedOrNop i = true) (ht : runCommands is s = .next t) :
    Absorbed (n + (absorbedBytes is).length) t := by
  induction is generalizing n s with
  | nil =>
    cases ht
    exact hs
  | cons i is ih =>
    obtain ⟨u, hu, hrest⟩ := runCommands_cons_eq ht
    obtain ⟨hi, his'⟩ := List.forall_mem_cons.mp his
    have hlen : (absorbedBytes (i :: is)).length = (operandBytes i).length + (absorbedBytes is).length := by
      simp [absorbedBytes]
    rw [hlen, ← Nat.add_assoc]
    exact ih (hs.exec hi hu) his' hrest

/-- Settles O44: INIT starts the count at 0, the FEEDs add their bytes, and all but FILL of them are whole blocks. -/
theorem counterCountsAbsorbedBits : Obligations.CounterCountsAbsorbedBits := by
  intro a is s t hs his ht
  obtain ⟨u, hu, hrest⟩ := runCommands_cons_eq ht
  cases (exec_init_eq hs a).symm.trans hu
  obtain ⟨hphase, hfill, hcnt⟩ := (absorbed_initState a s).runCommands his hrest
  rw [Nat.zero_add] at hfill hcnt
  refine ⟨hphase, hfill, ?_⟩
  rw [hcnt]
  omega

end Sys2Proof.Machine

/-! ### Proofs: the packing of words (spec/41_wordpacking.md R121 to R125)

`packGroups` takes four bytes at a time, so its facts go by induction over the groups; the end of a sequence, where no
whole group is left, gives no word. -/

namespace Sys2Proof.Machine

theorem bytesToWords_eq_ok_iff {s : List Byte} {o : ByteOrder} {ws : List Word} :
    bytesToWords s o = .ok ws ↔ s.length % 4 = 0 ∧ packGroups o s = ws := by
  by_cases hlen : s.length % 4 = 0
  · simp [bytesToWords_ok hlen, hlen]
  · simp [bytesToWords_error hlen, hlen]

/-- Word `i` is packed from the bytes `4i` to `4i + 3` (R121, R122). -/
theorem packGroups_getD (o : ByteOrder) (s : List Byte) {i : Nat} (hi : i < s.length / 4) :
    (packGroups o s).getD i 0 =
      packWord o (s.getD (4 * i) 0) (s.getD (4 * i + 1) 0) (s.getD (4 * i + 2) 0) (s.getD (4 * i + 3) 0) := by
  induction s using packGroups.induct generalizing i with
  | case1 s0 s1 s2 s3 rest ih =>
    cases i with
    | zero => rfl
    | succ i =>
      have hrest : i < rest.length / 4 := by
        simp only [List.length_cons] at hi
        omega
      exact ih hrest
  | case2 s hs =>
    rw [← packGroups_length o, packGroups.eq_2 o s hs] at hi
    exact absurd hi (Nat.not_lt_zero i)

theorem wordsToBytes_packGroups (o : ByteOrder) {s : List Byte} (hlen : s.length % 4 = 0) :
    wordsToBytes (packGroups o s) o = s := by
  induction s using packGroups.induct with
  | case1 s0 s1 s2 s3 rest ih =>
    have hrest : rest.length % 4 = 0 := by
      simp only [List.length_cons] at hlen
      omega
    rw [packGroups, wordsToBytes_cons, unpackWord_packWord, ih hrest]
    rfl
  | case2 s hs =>
    have hgroups : packGroups o s = [] := packGroups.eq_2 o s hs
    have hshort : 0 = s.length / 4 := by rw [← packGroups_length o, hgroups, List.length_nil]
    have hnil : s = [] := List.eq_nil_of_length_eq_zero (by omega)
    rw [hgroups, hnil]
    rfl

/-- The bytes of a word, in either order, are a group that packs to the word again. -/
theorem packGroups_unpackWord_append (o : ByteOrder) (w : Word) (bs : List Byte) :
    packGroups o (unpackWord o w ++ bs) = w :: packGroups o bs := by
  have hword := packWord_unpackWord_le w
  cases o with
  | le => exact congrArg (· :: packGroups .le bs) hword
  | be =>
    rw [← packWord_be] at hword
    exact congrArg (· :: packGroups .be bs) hword

theorem packGroups_wordsToBytes (o : ByteOrder) (ws : List Word) : packGroups o (wordsToBytes ws o) = ws := by
  induction ws with
  | nil => rfl
  | cons w ws ih => rw [wordsToBytes_cons, packGroups_unpackWord_append, ih]

/-- Settles O48: a length divisible by 4 gives the words of the groups, any other raises BOUNDS. -/
theorem bytesToWordsFormulas : Obligations.BytesToWordsFormulas := by
  intro s o
  refine ⟨bytesToWords_error, fun hlen => ⟨packGroups o s, bytesToWords_ok hlen, packGroups_length o s, fun i hi => ?_⟩⟩
  rw [packGroups_getD o s hi]
  cases o <;> rfl

/-- Settles O49: the two conversions undo each other group by group, and a BE word is the LE word of the same four
bytes reversed. -/
theorem wordPackingInverse : Obligations.WordPackingInverse := by
  refine ⟨fun s o ws hws => ?_, fun ws o => ?_, fun s bs ls hbs hls => ?_⟩
  · obtain ⟨hlen, rfl⟩ := bytesToWords_eq_ok_iff.mp hws
    exact wordsToBytes_packGroups o hlen
  · have hlen : (wordsToBytes ws o).length % 4 = 0 := by rw [wordsToBytes_length, Nat.mul_mod_right]
    exact bytesToWords_eq_ok_iff.mpr ⟨hlen, packGroups_wordsToBytes o ws⟩
  · obtain ⟨-, rfl⟩ := bytesToWords_eq_ok_iff.mp hbs
    obtain ⟨-, rfl⟩ := bytesToWords_eq_ok_iff.mp hls
    refine ⟨(packGroups_length .be s).trans (packGroups_length .le s).symm, fun i hi => ?_⟩
    rw [packGroups_length] at hi
    rw [packGroups_getD .be s hi, packGroups_getD .le s hi, packWord_be, wordsToBytes_singleton,
      wordsToBytes_singleton, unpackWord_packWord_le, unpackWord_packWord_le]
    rfl

end Sys2Proof.Machine

/-! ### Proofs: the commands, each with its whole next state (spec/42_streaming.md R140, R143 to R149)

A FEED absorbs its bytes one by one. As long as the block has room this writes them to the buffer in order; the byte
that ends the block has it compressed, and what follows finds an empty buffer. -/

namespace Sys2Proof.Machine

/-! The step of a word written to CMD. -/

theorem step_of_cmdWrite {s : State} {w : Word} {rest : List HostEvent} (hs : s.port = cmdWrite w :: rest) :
    step s = performCommand w { s with port := rest, epoch := s.epoch + 1 } := step_of_port hs

theorem performCommand_of_ok {w : Word} {i : Instr} (hw : decode w = .ok i) (s : State) :
    performCommand w s = exec i s := by
  rw [performCommand, hw]

/-- Settles O9: the request is a word on CMD, and the word is legal. -/
theorem stepRunsDecodedCommand : Obligations.StepRunsDecodedCommand := by
  intro s w i rest hport hw
  rw [step_of_cmdWrite hport, performCommand_of_ok hw]

/-- Settles O10: the request is a word on CMD, and the word is illegal. -/
theorem stepOnIllegalWordFaults : Obligations.StepOnIllegalWordFaults := by
  intro s w e rest hs hport hw
  rw [step_of_cmdWrite hport]
  exact performCommand_of_error hw hs

/-! NOP, INIT and `Compress`. -/

/-- Settles O34: the word is computed; NOP does nothing on either side of the gate. -/
theorem nopHasNoEffect : Obligations.NopHasNoEffect := ⟨rfl, exec_nop_eq⟩

/-- Settles O35: INIT leaves `initState`, whose phase is ABSORB, so that a second INIT is performed too and writes the
same. -/
theorem initSetsTheInitialState : Obligations.InitSetsTheInitialState := by
  intro a s hs
  refine ⟨initState a s, ?_, exec_init_eq hs a, exec_init_eq (s := initState a s) nofun a⟩
  cases a <;> rfl

theorem compressChain_of_length_ne (a : Alg) (h : Vector Word 5) {block : List Byte} (hb : block.length ≠ 64) :
    compressChain a h block = .error .bounds := if_neg hb

theorem compress_of_length_ne {block : List Byte} (hb : block.length ≠ 64) (s : State) :
    compress block s = .error .bounds := by
  rw [compress, compressChain_of_length_ne s.alg s.h hb]
  rfl

theorem md4Compress_of_length (h : Vector Word 4) {block : List Byte} (hb : block.length = 64) :
    ∃ o, md4Compress h block = .ok o := by
  rw [md4Compress, bytesToWords_ok (by rw [hb])]
  exact ⟨_, rfl⟩

theorem compressChain_md4_of_length {h : Vector Word 5} {block : List Byte} (hb : block.length = 64) :
    ∃ o, md4Compress #v[h[0], h[1], h[2], h[3]] block = .ok o ∧
      compressChain .md4 h block = .ok #v[o[0], o[1], o[2], o[3], h[4]] := by
  obtain ⟨o, ho⟩ := md4Compress_of_length #v[h[0], h[1], h[2], h[3]] hb
  refine ⟨o, ho, ?_⟩
  rw [compressChain, if_pos hb]
  simp only [ho]
  rfl

theorem compressChain_sha0_of_length (h : Vector Word 5) {block : List Byte} (hb : block.length = 64) :
    compressChain .sha0 h block = sha0Compress h block := if_pos hb

/-- Settles O57: `compressChain` runs the transform that ALG selects, and `Compress` writes its result to `H`. -/
theorem compressRunsTheSelectedTransform : Obligations.CompressRunsTheSelectedTransform := by
  intro s block
  refine ⟨fun hb => compress_of_length_ne hb s, fun hb ha => ?_, fun hb ha => ?_⟩
  · obtain ⟨o, ho, hc⟩ := compressChain_md4_of_length (h := s.h) hb
    obtain ⟨h, hh, hs⟩ := compress_of_length hb s
    rw [ha] at hh
    cases hc.symm.trans hh
    exact ⟨o, ho, hc, hs⟩
  · obtain ⟨h, hh, hs⟩ := compress_of_length hb s
    rw [ha] at hh
    exact ⟨h, (compressChain_sha0_of_length s.h hb).symm.trans hh, hh, hs⟩

/-! FEED: the buffer as `bufferWith` says it, byte by byte. -/

theorem getElem_bufferWith (bs : List Byte) (s : State) {k : Nat} (hk : k < 64) :
    (bufferWith bs s)[k] =
      if s.fill.val ≤ k ∧ k < s.fill.val + bs.length then bs.getD (k - s.fill.val) 0 else s.buf[k] := by
  rw [bufferWith, Vector.getElem_ofFn]
  rfl

theorem bufferWith_nil (s : State) : bufferWith [] s = s.buf := by
  refine Vector.ext fun k hk => ?_
  rw [getElem_bufferWith, List.length_nil, if_neg (by omega)]

/-- One more byte goes behind those written. -/
theorem bufferWith_concat {bs : List Byte} {s : State} (b : Byte) (room : s.fill.val + bs.length < 64) :
    bufferWith (bs ++ [b]) s = (bufferWith bs s).set (s.fill.val + bs.length) b := by
  refine Vector.ext fun k hk => ?_
  rw [Vector.getElem_set, getElem_bufferWith, getElem_bufferWith, List.length_append, List.length_singleton]
  rcases lt_trichotomy k (s.fill.val + bs.length) with hlt | rfl | hgt
  · rw [if_neg hlt.ne']
    by_cases hfill : s.fill.val ≤ k
    · have hk' : k - s.fill.val < bs.length := by omega
      rw [if_pos (by omega), if_pos (by omega), List.getD_append _ _ _ _ hk']
    · rw [if_neg (by omega), if_neg (by omega)]
  · rw [if_pos (by omega), if_pos rfl, Nat.add_sub_cancel_left, List.getD_append_right _ _ _ _ le_rfl, Nat.sub_self]
    rfl
  · rw [if_neg (by omega), if_neg hgt.ne, if_neg (by omega)]

/-- Bytes with room for them are written from FILL on, and FILL grows by their number (R145, R146). -/
theorem absorbBytes_room {bs : List Byte} {s : State} (room : s.fill.val + bs.length < 64) :
    absorbBytes bs s = .ok { s with buf := bufferWith bs s, fill := ⟨s.fill.val + bs.length, room⟩ } := by
  induction bs using List.reverseRecOn with
  | nil => rw [bufferWith_nil]; rfl
  | append_singleton bs b ih =>
    simp only [List.length_append, List.length_singleton] at room
    rw [absorbBytes_append, ih (by omega)]
    refine (absorbBytes_cons (absorbByte_room (by simpa [Nat.add_assoc] using room))).trans ?_
    rw [bufferWith_concat b (by omega)]
    simp [Nat.add_assoc]

/-- Settles O36: a FEED with room for its bytes writes them to the buffer. -/
theorem feedFillsTheBuffer : Obligations.FeedFillsTheBuffer := fun _ _ hi hs room =>
  exec_feed_eq hi hs (absorbBytes_room room)

theorem toList_bufferWith_full {bs : List Byte} {s : State} (full : s.fill.val + bs.length = 64) :
    (bufferWith bs s).toList = s.buf.toList.take s.fill.val ++ bs := by
  have hcarried : (s.buf.toList.take s.fill.val).length = s.fill.val := by
    simp
  refine List.ext_getElem (by simp [full]) fun k hk hk' => ?_
  rw [Vector.length_toList] at hk
  rw [Vector.getElem_toList, getElem_bufferWith bs s hk]
  rcases Nat.lt_or_ge k s.fill.val with hlt | hge
  · rw [if_neg (by omega), List.getElem_append_left (by omega), List.getElem_take, Vector.getElem_toList]
  · rw [if_pos (by omega), List.getElem_append_right (by omega), List.getD_eq_getElem _ _ (by omega)]
    simp only [hcarried]

theorem bufferWith_clearBuffer (bs : List Byte) (s : State) : bufferWith bs (clearBuffer s) = byteRegister 64 bs := by
  refine Vector.ext fun k hk => ?_
  rw [getElem_bufferWith, byteRegister, Vector.getElem_ofFn]
  split_ifs with hin
  · rfl
  · have hk' : bs.length ≤ k := by
      rw [clearBuffer_fill, Fin.val_zero] at hin
      omega
    rw [List.getD_eq_default _ _ hk', clearBuffer_buf, Vector.getElem_replicate]

theorem absorbBytes_clearBuffer {bs : List Byte} (s : State) (room : bs.length < 64) :
    absorbBytes bs (clearBuffer s) = .ok { s with buf := byteRegister 64 bs, fill := Fin.ofNat 64 bs.length } := by
  have room' : (clearBuffer s).fill.val + bs.length < 64 := by simpa using room
  have hfill : Fin.ofNat 64 bs.length = ⟨bs.length, room⟩ := Fin.ext (Nat.mod_eq_of_lt room)
  rw [absorbBytes_room room', bufferWith_clearBuffer, hfill]
  simp [clearBuffer]

/-- Bytes that end with the block: it is compressed and counted, and the buffer is emptied (R146, R147). -/
theorem absorbBytes_full {bs : List Byte} {s : State} (full : s.fill.val + bs.length = 64) :
    ∃ h, compressChain s.alg s.h (s.buf.toList.take s.fill.val ++ bs) = .ok h ∧
      absorbBytes bs s = .ok (clearBuffer { s with h := h, cnt := counterAdd 512 s.cnt }) := by
  have hfill := s.fill.isLt
  obtain rfl | ⟨init, b, rfl⟩ := List.eq_nil_or_concat' bs
  · rw [List.length_nil] at full
    omega
  rw [List.length_append, List.length_singleton] at full
  have room : s.fill.val + init.length < 64 := by omega
  obtain ⟨h, hc, hfull⟩ := absorbByte_full (b := b)
    (s := { s with buf := bufferWith init s, fill := ⟨s.fill.val + init.length, room⟩ }) (Nat.succ.inj full)
  refine ⟨h, ?_, ?_⟩
  · rw [← toList_bufferWith_full (by simpa using full), bufferWith_concat b room]
    exact hc
  · rw [absorbBytes_append, absorbBytes_room room]
    refine (absorbBytes_cons hfull).trans ?_
    simp only [absorbBytes_nil, clearBuffer]

/-- Bytes that reach the end of the block: those up to it complete the block, the rest finds an empty buffer. -/
theorem absorbBytes_completing {bs : List Byte} {s : State} (hfull : 64 ≤ s.fill.val + bs.length)
    (hrest : s.fill.val + bs.length - 64 < 64) :
    ∃ h, compressChain s.alg s.h (completedBlock bs s) = .ok h ∧
      absorbBytes bs s = .ok { s with
        h := h
        cnt := counterAdd 512 s.cnt
        buf := byteRegister 64 (bs.drop (64 - s.fill.val))
        fill := Fin.ofNat 64 (s.fill.val + bs.length - 64) } := by
  have hfill := s.fill.isLt
  have htake : s.fill.val + (bs.take (64 - s.fill.val)).length = 64 := by
    rw [List.length_take]
    omega
  have hdrop : (bs.drop (64 - s.fill.val)).length = s.fill.val + bs.length - 64 := by
    rw [List.length_drop]
    omega
  obtain ⟨h, hc, hblock⟩ := absorbBytes_full htake
  refine ⟨h, hc, ?_⟩
  calc absorbBytes bs s
    _ = (absorbBytes (bs.take (64 - s.fill.val)) s).bind (absorbBytes (bs.drop (64 - s.fill.val))) := by
      rw [← absorbBytes_append, List.take_append_drop]
    _ = absorbBytes (bs.drop (64 - s.fill.val)) (clearBuffer { s with h := h, cnt := counterAdd 512 s.cnt }) := by
      rw [hblock]
      rfl
    _ = _ := by rw [absorbBytes_clearBuffer _ (by omega), hdrop]

/-- Settles O37: a FEED has at most three bytes, so it completes one block and leaves room in the next. -/
theorem feedCompressesAFullBlock : Obligations.FeedCompressesAFullBlock := by
  intro i s hi hs hfull
  have hmax : (operandBytes i).length ≤ 3 := by
    cases i <;> simp [operandBytes]
  obtain ⟨h, hc, habsorb⟩ := absorbBytes_completing hfull (by omega)
  exact ⟨h, hc, exec_feed_eq hi hs habsorb⟩

/-! FINAL. -/

/-- Settles O38: `finalState` is the state written out. -/
theorem finalWritesTheDigest : Obligations.FinalWritesTheDigest := by
  intro s hs
  obtain ⟨h, hchain, hfinal⟩ := finalize_eq_finalState s
  exact ⟨h, hchain, exec_final_eq hs hfinal⟩

end Sys2Proof.Machine

/-! ### Proofs: the phases (spec/42_streaming.md R141, R142, R148, spec/60_exceptions.md R241, R245)

The phase after a command is the matrix's; the codes of FCODE are read off the effects of a word on CMD. -/

namespace Sys2Proof.Machine

/-! The fault codes. -/

/-- Settles O11: a command meets the gate of FAULTED, and of the other effects of a step only a reset writes PHASE. -/
theorem faultedIgnoresEveryCommand : Obligations.FaultedIgnoresEveryCommand := by
  refine ⟨fun s w rest hs hport => ?_, fun s t hs ht hreset => ?_⟩
  · rw [step_of_cmdWrite hport]
    exact performCommand_of_faulted (s := { s with port := rest, epoch := s.epoch + 1 }) hs w
  · cases step_effect ht with
    | reset hhead => exact absurd hhead hreset
    | idle | read => exact ⟨hs, rfl⟩
    | command w _ _ hw =>
      cases hw with
      | noEffect => exact ⟨hs, rfl⟩
      | illegal hp | init _ hp => exact absurd hs hp
      | fault _ _ hf => simp [hs, faultOf] at hf
      | feed _ _ hp | final _ hp => simp [hs] at hp

/-- No code of the matrix is BOUNDS, so a word on CMD never newly raises it (R148). -/
theorem CommandEffect.bounds_kept {w : Word} {s t : State} (ht : CommandEffect w s t)
    (hbounds : t.fcode = some .bounds) : s.fcode = some .bounds := by
  cases ht with
  | noEffect | init | final => exact hbounds
  | illegal => cases hbounds
  | fault i c hf => obtain ⟨-, -, rfl⟩ | ⟨-, -, rfl⟩ | ⟨-, -, rfl⟩ := faultOf_cases hf <;> cases hbounds
  | feed _ _ _ _ _ hfeed =>
    rw [absorbBytes_frame hfeed] at hbounds
    exact hbounds

/-- Settles O25: a block of another length fails the check, and no effect of a step raises BOUNDS. -/
theorem boundsIsUnreachable : Obligations.BoundsIsUnreachable := by
  refine ⟨fun a h _ => compressChain_of_length_ne a h, fun s t ht hbounds => ?_⟩
  cases step_effect ht with
  | reset => cases hbounds
  | idle | read => exact hbounds
  | command w _ _ hw => exact hw.bounds_kept hbounds

/-! The matrix. -/

/-- Settles O27: each cell is what the commands do in that phase. -/
theorem phaseCommandMatrix : Obligations.PhaseCommandMatrix := by
  intro s
  refine ⟨exec_nop_eq s, fun i hs => exec_of_faulted hs i, fun a hs => ⟨_, rfl, exec_init_eq hs a, rfl⟩,
    fun i hi hs => ?_, fun hs => ?_, fun i c => exec_of_faultOf, fun w e => performCommand_of_error,
    fun w hs => performCommand_of_faulted hs w⟩
  · obtain ⟨t, ht, -⟩ := absorbBytes_ok (operandBytes i) s
    exact ⟨t, ht, exec_feed_eq hi hs ht, by rw [absorbBytes_frame ht, hs]⟩
  · obtain ⟨h, -, ht⟩ := finalize_eq_finalState s
    exact ⟨_, ht, exec_final_eq hs ht, rfl⟩

/-! Runs of commands. -/

theorem runCommands_cons {i : Instr} {s t : State} (hi : exec i s = .next t) (is : List Instr) :
    runCommands (i :: is) s = runCommands is t := by
  rw [runCommands, hi]

theorem phaseAfter_ne_faulted {p : Phase} {i : Instr} (hp : p ≠ .faulted) (h : faultOf p i = none) :
    phaseAfter p i ≠ .faulted := by
  cases p <;> cases i <;> simp_all [faultOf, phaseAfter]

theorem phaseAfter_nop (p : Phase) : phaseAfter p .nop = p := by cases p <;> rfl

theorem phaseAfter_init {p : Phase} (hp : p ≠ .faulted) (a : Alg) : phaseAfter p (.init a) = .absorb := by
  cases p with
  | uninit | absorb | finalized => rfl
  | faulted => exact absurd rfl hp

theorem phaseAfter_absorb_feed {i : Instr} (hi : isFeed i = true) : phaseAfter .absorb i = .absorb := by
  cases i with
  | feed0 | feed1 | feed2 | feed3 => rfl
  | nop | init | final => cases hi

/-- A command that raises no fault leaves the phase that the matrix names. -/
theorem exec_phase_eq {i : Instr} {s t : State} (hs : s.phase ≠ .faulted) (hf : faultOf s.phase i = none)
    (ht : exec i s = .next t) : t.phase = phaseAfter s.phase i := by
  obtain ⟨hnop, -, hinit, hfeed, hfinal, -⟩ := phaseCommandMatrix s
  have hfeed' (hi : isFeed i = true) : t.phase = phaseAfter s.phase i := by
    have hp := eq_absorb_of_faultOf_none (.inl hi) hs hf
    obtain ⟨u, -, hu, hphase⟩ := hfeed i hi hp
    cases hu.symm.trans ht
    rw [hphase, hp, phaseAfter_absorb_feed hi]
  cases i with
  | nop =>
    cases hnop.symm.trans ht
    rw [phaseAfter_nop]
  | init a =>
    obtain ⟨u, -, hu, hphase⟩ := hinit a hs
    cases hu.symm.trans ht
    rw [hphase, phaseAfter_init hs]
  | feed0 | feed1 | feed2 | feed3 => exact hfeed' rfl
  | final =>
    have hp := eq_absorb_of_faultOf_none (.inr rfl) hs hf
    obtain ⟨u, -, hu, hphase⟩ := hfinal hp
    cases hu.symm.trans ht
    rw [hphase, hp]
    rfl

theorem runCommands_of_faulted {s : State} (hs : s.phase = .faulted) (is : List Instr) :
    runCommands is s = .next s := by
  induction is with
  | nil => rfl
  | cons i is ih => rw [runCommands_cons (exec_of_faulted hs i), ih]

/-- Settles O28, by induction on the commands: at the first one that faults the run is in FAULTED for good. -/
theorem noFaultIffProtocolKept : Obligations.NoFaultIffProtocolKept := by
  intro is
  induction is with
  | nil =>
    intro s t hs ht
    cases ht
    exact iff_of_true rfl hs
  | cons i is ih =>
    intro s t hs ht
    obtain ⟨u, hu, hrest⟩ := runCommands_cons_eq ht
    have hsafe : s.phase ≠ .faulted := hs
    cases hf : faultOf s.phase i with
    | some c =>
      cases (exec_of_faultOf hf).symm.trans hu
      cases (runCommands_of_faulted rfl is).symm.trans hrest
      simp [followsProtocol, hf, Safe]
    | none =>
      have hphase := exec_phase_eq hsafe hf hu
      have hu' : Safe u := by
        rw [Safe, hphase]
        exact phaseAfter_ne_faulted hsafe hf
      rw [← ih u t hu' hrest, hphase]
      simp [followsProtocol, hf, hsafe]

end Sys2Proof.Machine

/-! ### Proofs: the padding (spec/42_streaming.md R150, R151, R156)

The blocks of FINAL joined are the tail with its padding, and cutting a padded message into blocks undoes the joining. -/

namespace Sys2Proof.Machine

/-! The final blocks. -/

theorem padZeros_eq (n : Nat) : padZeros n = (119 - n % 64) % 64 := rfl

theorem length_of_mem_finalBlocks {s : State} {b : List Byte} (hb : b ∈ finalBlocks s) : b.length = 64 := by
  have hfill := s.fill.isLt
  rcases Nat.lt_or_ge s.fill.val 56 with ht | ht
  · rw [finalBlocks_single ht, List.mem_singleton] at hb
    simp only [hb, List.length_append, List.length_take, Vector.length_toList, List.length_singleton, zeros_length,
      lenField_length, counterToBytes_length]
    omega
  · rw [finalBlocks_double ht] at hb
    obtain rfl | hb := List.mem_cons.mp hb
    · simp only [List.length_append, List.length_take, Vector.length_toList, List.length_singleton, zeros_length]
      omega
    · simp [List.mem_singleton.mp hb]

theorem length_finalBlocks (s : State) : (finalBlocks s).length = if 56 ≤ s.fill.val then 2 else 1 := by
  split_ifs with ht
  · rw [finalBlocks_double ht, List.length_cons, List.length_singleton]
  · rw [finalBlocks_single (Nat.lt_of_not_le ht), List.length_singleton]

/-- The zeros of R150 fill the one block, or the first and 56 bytes of the second. -/
theorem flatten_finalBlocks (s : State) : (finalBlocks s).flatten =
    s.buf.toList.take s.fill.val ++ [0x80] ++ zeros (padZeros s.fill.val) ++
      lenField s.alg (counterToBytes (counterAdd (BitVec.ofNat 32 (8 * s.fill.val)) s.cnt)) := by
  have hfill := s.fill.isLt
  rcases Nat.lt_or_ge s.fill.val 56 with ht | ht
  · have hzeros : padZeros s.fill.val = 55 - s.fill.val := by
      unfold padZeros blockBytes
      omega
    simp [finalBlocks_single ht, hzeros]
  · have hzeros : zeros (padZeros s.fill.val) = zeros (63 - s.fill.val) ++ zeros 56 := by
      rw [zeros, zeros, zeros, List.replicate_append_replicate]
      congr 1
      rw [padZeros_eq]
      omega
    simp [finalBlocks_double ht, hzeros]

/-! The padded message and its blocks. -/

/-- Only the bytes behind the last whole block decide how many zeros follow. -/
theorem padZeros_mod (n : Nat) : padZeros (n % 64) = padZeros n := by
  rw [padZeros_eq, padZeros_eq, Nat.mod_mod]

@[simp] theorem length_messageLenField (a : Alg) (n : Nat) : (messageLenField a n).length = 8 := by
  cases a <;> simp [messageLenField, bitLengthBytes]

theorem messageLenField_eq_lenField (a : Alg) (n : Nat) : messageLenField a n = lenField a (bitLengthBytes n) := by
  cases a <;> rfl

/-- A counter that holds the bits of `n` bytes, mod 2^64, gives the bytes of that number (R103, R104). -/
theorem counterToBytes_eq_bitLengthBytes {cnt : Vector Word 2} {n : Nat} (hcnt : counterValue cnt = 8 * n % 2 ^ 64) :
    counterToBytes cnt = bitLengthBytes n := by
  refine List.ext_getElem rfl fun k hk _ => ?_
  obtain ⟨-, hdigits⟩ := counterBytesAreLittleEndian cnt
  obtain ⟨-, hdigit⟩ := hdigits ⟨k, hk⟩
  rw [List.getElem?_eq_getElem hk, Option.map_some, Option.some_inj, hcnt] at hdigit
  have hk8 : k < 8 := hk
  have hlow : 8 * n % 2 ^ 64 / 256 ^ k % 256 = 8 * n / 256 ^ k % 256 := by
    interval_cases k <;> omega
  have hbyte : (bitLengthBytes n)[k].toNat = 8 * n / 256 ^ k % 256 := by
    simp [bitLengthBytes]
  exact BitVec.eq_of_toNat_eq ((hdigit.trans hlow).trans hbyte.symm)

theorem length_takeBlocks (n : Nat) (s : List Byte) : (takeBlocks n s).length = n := by
  induction n generalizing s with
  | zero => rfl
  | succ n ih => rw [takeBlocks, List.length_cons, ih]

theorem length_messageBlocks (s : List Byte) : (messageBlocks s).length = s.length / 64 := length_takeBlocks _ _

theorem takeBlocks_flatten {blocks : List (List Byte)} (hblocks : ∀ b ∈ blocks, b.length = 64) :
    takeBlocks blocks.length blocks.flatten = blocks := by
  induction blocks with
  | nil => rfl
  | cons b bs ih =>
    obtain ⟨hb, hbs⟩ := List.forall_mem_cons.mp hblocks
    rw [List.length_cons, List.flatten_cons, takeBlocks, List.take_left' hb, List.drop_left' hb, ih hbs]

/-- Cutting into blocks undoes joining them. -/
theorem messageBlocks_flatten {blocks : List (List Byte)} (hblocks : ∀ b ∈ blocks, b.length = 64) :
    messageBlocks blocks.flatten = blocks := by
  have hlen : blocks.flatten.length = blocks.length * 64 := by
    rw [List.length_flatten, List.map_congr_left hblocks, List.map_const', List.sum_replicate, smul_eq_mul]
  rw [messageBlocks, hlen, Nat.mul_div_cancel _ (by decide), takeBlocks_flatten hblocks]

/-- Settles O39: the blocks by the two cases of `finalBlocks`, their number by the length of the padded message. -/
theorem paddingBoundary : Obligations.PaddingBoundary := by
  refine ⟨fun s => ⟨length_finalBlocks s, fun _ => length_of_mem_finalBlocks, flatten_finalBlocks s⟩, fun a m => ?_⟩
  have hlen : (paddedMessage a m).length = m.length + 9 + padZeros m.length := by
    simp only [paddedMessage, List.length_append, List.length_singleton, zeros_length, length_messageLenField]
    omega
  rw [length_messageBlocks, hlen, padZeros_eq]
  split_ifs <;> omega

end Sys2Proof.Machine

/-! ### Proofs: whole messages (spec/42_streaming.md R152 to R155)

While a message is absorbed, the engine has compressed its whole blocks and carries the rest. FINAL compresses the
blocks that the padding adds, so `H` is then the chaining value of the padded message, and that depends on the bytes
absorbed alone. -/

namespace Sys2Proof.Machine

/-! The chaining value of a message. -/

theorem chainBlocks_append {a : Alg} {h h' : Vector Word 5} {blocks : List (List Byte)}
    (hchain : chainBlocks a h blocks = .ok h') (more : List (List Byte)) :
    chainBlocks a h (blocks ++ more) = chainBlocks a h' more := by
  rw [chainBlocks, List.foldlM_append]
  rw [chainBlocks] at hchain
  rw [hchain]
  rfl

/-- The chaining value after the padded message (R152). -/
def messageChain (a : Alg) (m : List Byte) : Except FaultCode (Vector Word 5) :=
  chainBlocks a (initialChain a) (messageBlocks (paddedMessage a m))

theorem hashReference_of_messageChain {a : Alg} {m : List Byte} {h : Vector Word 5} (hh : messageChain a m = .ok h) :
    hashReference a m = .ok ((digestBytes a h).take (digestLength a)) := by
  rw [messageChain] at hh
  simp [hashReference, hh, bind, Except.bind]

/-- In ABSORB with the message `m` absorbed since `INIT a`: its whole blocks are compressed into `H`, the rest of its
bytes are carried in the buffer, and FILL and the counter count it. -/
structure AbsorbedMessage (a : Alg) (m : List Byte) (s : State) : Prop where
  counted : Absorbed m.length s
  alg_eq : s.alg = a
  chained : ∃ blocks : List (List Byte), (∀ b ∈ blocks, b.length = 64) ∧
    m = blocks.flatten ++ s.buf.toList.take s.fill.val ∧ chainBlocks a (initialChain a) blocks = .ok s.h

theorem AbsorbedMessage.phase_eq {a : Alg} {m : List Byte} {s : State} (hs : AbsorbedMessage a m s) :
    s.phase = .absorb := hs.counted.1

theorem absorbedMessage_initState (a : Alg) (s : State) : AbsorbedMessage a [] (initState a s) where
  counted := absorbed_initState a s
  alg_eq := rfl
  chained := ⟨[], nofun, rfl, rfl⟩

/-- The carried bytes and one byte more. -/
theorem take_set_fill (b : Byte) (s : State) : (s.buf.set s.fill b).toList.take (s.fill.val + 1) =
    s.buf.toList.take s.fill.val ++ [b] := by
  rw [Vector.toList_set, List.take_add_one, List.take_set_of_le le_rfl]
  simp

theorem AbsorbedMessage.absorbByte {a : Alg} {m : List Byte} {b : Byte} {s t : State} (hs : AbsorbedMessage a m s)
    (ht : absorbByte b s = .ok t) : AbsorbedMessage a (m ++ [b]) t := by
  obtain ⟨hcounted, halg, blocks, hblocks, hm, hchain⟩ := hs
  have hcounted' : Absorbed (m ++ [b]).length t := by
    rw [List.length_append]
    exact hcounted.absorbByte ht
  have hm' : m ++ [b] = blocks.flatten ++ (s.buf.set s.fill b).toList.take (s.fill.val + 1) := by
    rw [take_set_fill, hm, List.append_assoc]
  by_cases room : s.fill.val + 1 < 64
  · cases (absorbByte_room room).symm.trans ht
    exact ⟨hcounted', halg, blocks, hblocks, hm', hchain⟩
  · have full : s.fill.val = 63 := by omega
    obtain ⟨h, hc, hfull⟩ := absorbByte_full (b := b) full
    cases hfull.symm.trans ht
    refine ⟨hcounted', halg, blocks ++ [(s.buf.set s.fill b).toList], ?_, ?_, ?_⟩
    · exact List.forall_mem_append.mpr ⟨hblocks, by simp⟩
    · rw [hm', List.take_of_length_le (by simp [full])]
      simp
    · rw [halg] at hc
      rw [chainBlocks_append hchain, chainBlocks_cons hc, chainBlocks_nil]
      rfl

theorem AbsorbedMessage.absorbBytes {a : Alg} {m bs : List Byte} {s t : State} (hs : AbsorbedMessage a m s)
    (ht : absorbBytes bs s = .ok t) : AbsorbedMessage a (m ++ bs) t := by
  induction bs generalizing m s with
  | nil =>
    cases ht
    rwa [List.append_nil]
  | cons b bs ih =>
    obtain ⟨u, hu, -⟩ := absorbByte_ok b s
    rw [absorbBytes_cons hu] at ht
    rw [List.append_cons]
    exact ih (hs.absorbByte hu) ht

/-! The run of a message. -/

theorem runCommands_append {is : List Instr} {s t : State} (his : runCommands is s = .next t) (js : List Instr) :
    runCommands (is ++ js) s = runCommands js t := by
  induction is generalizing s with
  | nil =>
    cases his
    rfl
  | cons i is ih =>
    obtain ⟨u, hu, hrest⟩ := runCommands_cons_eq his
    rw [List.cons_append, runCommands_cons hu, ih hrest]

theorem absorbedBytes_cons (i : Instr) (is : List Instr) :
    absorbedBytes (i :: is) = operandBytes i ++ absorbedBytes is := List.flatMap_cons

theorem isFeedOrNop_cases {i : Instr} (hi : isFeedOrNop i = true) : i = .nop ∨ isFeed i = true := by
  cases i <;> simp_all [isFeedOrNop, isFeed]

theorem isFeedOrNop_of_isFeed {i : Instr} (hi : isFeed i = true) : isFeedOrNop i = true := by
  cases i <;> simp_all [isFeedOrNop, isFeed]

/-- In ABSORB a FEED or NOP absorbs its operand bytes (R143, R145). -/
theorem AbsorbedMessage.exec {a : Alg} {m : List Byte} {i : Instr} {s : State} (hs : AbsorbedMessage a m s)
    (hi : isFeedOrNop i = true) : ∃ t, exec i s = .next t ∧ AbsorbedMessage a (m ++ operandBytes i) t := by
  obtain rfl | hfeed := isFeedOrNop_cases hi
  · exact ⟨s, exec_nop_eq s, by rwa [operandBytes, List.append_nil]⟩
  · obtain ⟨t, ht, -⟩ := absorbBytes_ok (operandBytes i) s
    exact ⟨t, exec_feed_eq hfeed hs.phase_eq ht, hs.absorbBytes ht⟩

theorem AbsorbedMessage.runCommands {a : Alg} {m : List Byte} {is : List Instr} {s : State}
    (hs : AbsorbedMessage a m s) (his : ∀ i ∈ is, isFeedOrNop i = true) :
    ∃ t, runCommands is s = .next t ∧ AbsorbedMessage a (m ++ absorbedBytes is) t := by
  induction is generalizing m s with
  | nil => exact ⟨s, rfl, by rwa [absorbedBytes, List.flatMap_nil, List.append_nil]⟩
  | cons i is ih =>
    obtain ⟨hi, his'⟩ := List.forall_mem_cons.mp his
    obtain ⟨u, hu, hmsg⟩ := hs.exec hi
    rw [runCommands_cons hu, absorbedBytes_cons, ← List.append_assoc]
    exact ih hmsg his'

/-- The blocks already compressed and the final blocks are those of the padded message. -/
theorem AbsorbedMessage.messageChain_eq {a : Alg} {m : List Byte} {s : State} (hs : AbsorbedMessage a m s) :
    messageChain a m = chainBlocks a s.h (finalBlocks s) := by
  obtain ⟨⟨-, hfill, hcnt⟩, rfl, blocks, hblocks, hm, hchain⟩ := hs
  have hcounter : counterValue (counterAdd (BitVec.ofNat 32 (8 * s.fill.val)) s.cnt) = 8 * m.length % 2 ^ 64 := by
    rw [counterValue_counterAdd, hcnt, BitVec.toNat_ofNat]
    omega
  have hpadded : paddedMessage s.alg m = (blocks ++ finalBlocks s).flatten := by
    rw [paddedMessage, List.flatten_append, flatten_finalBlocks, counterToBytes_eq_bitLengthBytes hcounter,
      ← messageLenField_eq_lenField, hfill, padZeros_mod]
    nth_rw 1 [hm]
    simp only [List.append_assoc, hfill]
  have hall : ∀ b ∈ blocks ++ finalBlocks s, b.length = 64 :=
    List.forall_mem_append.mpr ⟨hblocks, fun _ => length_of_mem_finalBlocks⟩
  rw [messageChain, hpadded, messageBlocks_flatten hall, chainBlocks_append hchain]

/-- In FINALIZED with the digest of the message `m` of algorithm `a` in `D`. -/
structure HoldsDigest (a : Alg) (m : List Byte) (t : State) : Prop where
  phase_eq : t.phase = .finalized
  alg_eq : t.alg = a
  digest : ∃ h, messageChain a m = .ok h ∧ t.d = byteRegister 20 (digestBytes a h)

/-- FINAL after a message leaves its digest. -/
theorem AbsorbedMessage.exec_final {a : Alg} {m : List Byte} {s : State} (hs : AbsorbedMessage a m s) :
    ∃ t, Machine.exec .final s = .next t ∧ HoldsDigest a m t := by
  obtain ⟨h, hchain, hfinal⟩ := finalize_eq_finalState s
  refine ⟨finalState h s, exec_final_eq hs.phase_eq hfinal, rfl, hs.alg_eq, h, ?_, by rw [← hs.alg_eq]; rfl⟩
  rw [hs.messageChain_eq, ← hs.alg_eq, hchain]

/-- One message from any state with no fault: `D` gets the digest of the bytes absorbed, whatever cut them into FEEDs
and whatever was before INIT (R152, R153). -/
theorem runCommands_message {a : Alg} {is : List Instr} {s : State} (hs : Safe s)
    (his : ∀ i ∈ is, isFeedOrNop i = true) :
    ∃ t, runCommands ([.init a] ++ is ++ [.final]) s = .next t ∧ HoldsDigest a (absorbedBytes is) t := by
  obtain ⟨u, hu, hmsg⟩ := (absorbedMessage_initState a s).runCommands his
  obtain ⟨t, ht, hdigest⟩ := hmsg.exec_final
  refine ⟨t, ?_, hdigest⟩
  rw [List.append_assoc, List.singleton_append, runCommands_cons (exec_init_eq hs a), runCommands_append hu,
    runCommands_cons ht, runCommands]

/-- HASH is one message, cut into FEEDs as R80 says. -/
theorem runCommands_hashCommands (a : Alg) (m : List Byte) {s : State} (hs : Safe s) :
    ∃ t, runCommands (hashCommands a m) s = .next t ∧ HoldsDigest a m t := by
  obtain ⟨hbytes, hfeed, -⟩ := feedsExpansion.1 m
  have hrun := runCommands_message (a := a) hs fun i hi => isFeedOrNop_of_isFeed (hfeed i hi)
  rwa [hbytes] at hrun

/-! What `D` holds then. -/

theorem HoldsDigest.d_eq {a : Alg} {m : List Byte} {s t : State} (hs : HoldsDigest a m s) (ht : HoldsDigest a m t) :
    s.d = t.d := by
  obtain ⟨h, hchain, hd⟩ := hs.digest
  obtain ⟨h', hchain', hd'⟩ := ht.digest
  cases hchain.symm.trans hchain'
  rw [hd, hd']

theorem byteRegister_toList {n : Nat} {bs : List Byte} (hbs : bs.length = n) : (byteRegister n bs).toList = bs := by
  refine List.ext_getElem (by simp [hbs]) fun k hk hk' => ?_
  simp [byteRegister, hk']

/-- What stands behind the digest in `D`: four zeros under MD4, no byte under SHA-0 (R27). -/
def digestFiller : Alg → List Byte
  | .md4 => zeros 4
  | .sha0 => []

theorem take_digestBytes_append (a : Alg) (h : Vector Word 5) :
    (digestBytes a h).take (digestLength a) ++ digestFiller a = digestBytes a h := by
  cases a with
  | md4 => rfl
  | sha0 => rw [digestFiller, List.append_nil, digestLength, List.take_of_length_le (by simp)]

theorem HoldsDigest.hashReference_eq {a : Alg} {m : List Byte} {t : State} (ht : HoldsDigest a m t) :
    hashReference a m = .ok (digestOutput t) := by
  obtain ⟨-, rfl, h, hchain, hd⟩ := ht
  rw [hashReference_of_messageChain hchain, digestOutput, hd, byteRegister_toList (digestBytes_length t.alg h)]

theorem HoldsDigest.toList_d {a : Alg} {m : List Byte} {t : State} (ht : HoldsDigest a m t) :
    t.d.toList = digestOutput t ++ digestFiller a := by
  obtain ⟨-, rfl, h, -, hd⟩ := ht
  rw [digestOutput, hd, byteRegister_toList (digestBytes_length t.alg h), take_digestBytes_append]

theorem length_digestOutput (t : State) : (digestOutput t).length = digestLength t.alg := by
  cases ha : t.alg <;> simp [digestOutput, digestLength, ha]

/-! The statements about whole messages. -/

/-- Settles O40: HASH is the run of one message, and `D` then holds the digest of its padded blocks. -/
theorem hashComputesTheReference : Obligations.HashComputesTheReference := by
  intro a m s hs
  obtain ⟨t, hrun, hdigest⟩ := runCommands_hashCommands a m hs
  exact ⟨t, hrun, hdigest.phase_eq, hdigest.alg_eq, hdigest.hashReference_eq⟩

/-- Settles O41: each run leaves the digest of the bytes it absorbed, which are the same. -/
theorem streamingEquivalence : Obligations.StreamingEquivalence := by
  intro a is js s t hs ht his hjs hbytes
  obtain ⟨s', hrun, hdigest⟩ := runCommands_message (a := a) hs his
  obtain ⟨t', hrun', hdigest'⟩ := runCommands_message (a := a) ht hjs
  rw [← hbytes] at hdigest'
  exact ⟨s', t', hrun, hrun', hdigest.phase_eq, hdigest'.phase_eq, hdigest.d_eq hdigest'⟩

/-- Settles O42: FINALIZED is no fault, so the same message can be run from there. -/
theorem reuseReproducesTheDigest : Obligations.ReuseReproducesTheDigest := by
  intro a is s t hs his ht
  obtain ⟨t', hrun, hdigest⟩ := runCommands_message (a := a) hs his
  cases hrun.symm.trans ht
  have hsafe : Safe t := by simp [Safe, hdigest.phase_eq]
  obtain ⟨u, hu, hdigest'⟩ := runCommands_message (a := a) hsafe his
  exact ⟨u, hu, hdigest'.d_eq hdigest⟩

/-- Settles O43: the digest is the one that HASH leaves after a reset, and any other run of HASH leaves the same. -/
theorem digestLengthIsFixed : Obligations.DigestLengthIsFixed := by
  intro a m
  obtain ⟨t0, -, hdigest0⟩ := runCommands_hashCommands a m (s := State.reset) nofun
  refine ⟨digestOutput t0, hdigest0.hashReference_eq, ?_, fun s t hs ht => ?_⟩
  · rw [length_digestOutput, hdigest0.alg_eq]
    cases a <;> rfl
  · obtain ⟨t', hrun, hdigest⟩ := runCommands_hashCommands a m hs
    cases hrun.symm.trans ht
    rw [hdigest.d_eq hdigest0, hdigest0.toList_d]
    cases a <;> rfl

end Sys2Proof.Machine

/-! ### Proofs: MD4's functions and step table, and the length field (spec/43_md4.md R182, R186 to R191, spec/44_sha0.md
R216)

A step of R186 is the row of R191 that its number gives, so the table is the list of the rounds' steps. The length field
is the two words of the counter as bytes, and the 56 bytes before it are 14 words. -/

namespace Sys2Proof.Machine

/-! The functions, bit by bit (R182). -/

theorem getLsbD_md4F (x y z : Word) {i : Nat} (hi : i < 32) :
    (md4F x y z).getLsbD i = if x.getLsbD i then y.getLsbD i else z.getLsbD i := by
  rw [md4F, BitVec.getLsbD_or, BitVec.getLsbD_and, BitVec.getLsbD_and, BitVec.getLsbD_not, decide_eq_true hi]
  cases x.getLsbD i <;> simp

theorem getLsbD_md4G (x y z : Word) (i : Nat) : (md4G x y z).getLsbD i =
    (x.getLsbD i && y.getLsbD i || x.getLsbD i && z.getLsbD i || y.getLsbD i && z.getLsbD i) := by
  simp [md4G]

theorem getLsbD_md4H (x y z : Word) (i : Nat) :
    (md4H x y z).getLsbD i = (x.getLsbD i ^^ y.getLsbD i ^^ z.getLsbD i) := by
  simp [md4H]

theorem majority_iff : ∀ a b c : Bool, (a && b || a && c || b && c) = true ↔ 2 ≤ a.toNat + b.toNat + c.toNat := by
  decide

theorem parity_iff : ∀ a b c : Bool, (a ^^ b ^^ c) = true ↔ (a.toNat + b.toNat + c.toNat) % 2 = 1 := by
  decide

/-- Settles O50: the formulas are the definitions, and a bit of the result is the function of the three bits. -/
theorem md4FunctionsBitwise : Obligations.Md4FunctionsBitwise := by
  intro x y z i hi
  refine ⟨rfl, rfl, rfl, getLsbD_md4F x y z hi, ?_, ?_⟩
  · rw [getLsbD_md4G]
    exact majority_iff _ _ _
  · rw [getLsbD_md4H]
    exact parity_iff _ _ _

/-! The step table (R191). -/

/-- The row of step `j` of round `r`, by the formulas of R184 to R186. -/
def md4RowOf (r : Md4Round) (j : Nat) : Md4Row :=
  { target := md4Target j
    x := md4Target j + 1
    y := md4Target j + 2
    z := md4Target j + 3
    word := (md4Ord r).getD j 0
    shift := (md4Sh r).getD (j % 4) 0 }

/-- The rows of a round as R191 writes them out. -/
def md4TableOf : Md4Round → List Md4Row
  | .r1 => md4TableRound1
  | .r2 => md4TableRound2
  | .r3 => md4TableRound3

theorem md4TableOf_eq (r : Md4Round) : md4TableOf r = (List.range 16).map (md4RowOf r) := by
  cases r <;> decide

theorem md4Step_eq_rowStep (x : List Word) (r : Md4Round) (v : Vector Word 4) (j : Nat) :
    md4Step x r v j = md4RowStep (md4Fn r) (md4K r) x v (md4RowOf r j) := rfl

/-- The 16 steps of a round are the rows of its part of the table. -/
theorem md4RoundSteps_eq_table (x : List Word) (v : Vector Word 4) (r : Md4Round) :
    md4RoundSteps x v r = (md4TableOf r).foldl (md4RowStep (md4Fn r) (md4K r) x) v := by
  rw [md4TableOf_eq, List.foldl_map]
  rfl

theorem md4Rounds_eq_tableLanes (x : List Word) (v : Vector Word 4) :
    [Md4Round.r1, .r2, .r3].foldl (md4RoundSteps x) v = md4TableLanes x v := by
  simp only [List.foldl_cons, List.foldl_nil, md4RoundSteps_eq_table]
  rfl

/-- Settles O51: the three rounds leave the lanes of the table, to which `MD4Compress` adds its input (R188). -/
theorem md4CompressFollowsTheTable : Obligations.Md4CompressFollowsTheTable := by
  intro hin block x _ hx
  obtain ⟨v, hv⟩ : ∃ v, v = md4TableLanes x hin := ⟨_, rfl⟩
  refine ⟨#v[hin[0] + v[0], hin[1] + v[1], hin[2] + v[2], hin[3] + v[3]], ?_, fun i => ?_⟩
  · simp only [md4Compress, hx, bind, Except.bind, md4Rounds_eq_tableLanes, hv]
  · rw [← hv]
    fin_cases i <;> rfl

/-! The length field (R189, R216). -/

theorem lenField_md4 (cnt : Vector Word 2) :
    lenField .md4 (counterToBytes cnt) = wordsToBytes [cnt[0], cnt[1]] .le := rfl

theorem lenField_sha0 (cnt : Vector Word 2) :
    lenField .sha0 (counterToBytes cnt) = wordsToBytes [cnt[1], cnt[0]] .be := rfl

theorem bytesToWords_wordsToBytes (ws : List Word) (o : ByteOrder) : bytesToWords (wordsToBytes ws o) o = .ok ws := by
  obtain ⟨-, hback, -⟩ := wordPackingInverse
  exact hback ws o

/-- Behind whole groups of four bytes, the bytes of `ws` convert back to `ws`, behind the words of the groups. -/
theorem bytesToWords_append_wordsToBytes {front : List Byte} (o : ByteOrder) (hfront : front.length % 4 = 0)
    (ws : List Word) : bytesToWords (front ++ wordsToBytes ws o) o = .ok (packGroups o front ++ ws) := by
  have hbytes : front ++ wordsToBytes ws o = wordsToBytes (packGroups o front ++ ws) o := by
    rw [wordsToBytes, wordsToBytes, List.flatMap_append]
    exact congrArg (· ++ wordsToBytes ws o) (wordsToBytes_packGroups o hfront).symm
  rw [hbytes, bytesToWords_wordsToBytes]

/-- A block that ends in the bytes of two words has them as its words 14 and 15. -/
theorem bytesToWords_block_end {front : List Byte} (o : ByteOrder) (hfront : front.length = 56) (w14 w15 : Word) :
    ∃ x, bytesToWords (front ++ wordsToBytes [w14, w15] o) o = .ok x ∧ x.length = 16 ∧
      x[14]? = some w14 ∧ x[15]? = some w15 := by
  have hwords : (packGroups o front).length = 14 := by rw [packGroups_length, hfront]
  exact ⟨packGroups o front ++ [w14, w15], bytesToWords_append_wordsToBytes o (by rw [hfront]) _, by simp [hwords],
    by simp [hwords], by simp [hwords]⟩

/-- The last block is 56 bytes and the length field, whether FINAL transforms one block or two (R150, R151). -/
theorem getLast?_finalBlocks (s : State) : ∃ front : List Byte, front.length = 56 ∧ (finalBlocks s).getLast? =
    some (front ++ lenField s.alg (counterToBytes (counterAdd (BitVec.ofNat 32 (8 * s.fill.val)) s.cnt))) := by
  rcases Nat.lt_or_ge s.fill.val 56 with ht | ht
  · refine ⟨s.buf.toList.take s.fill.val ++ [0x80] ++ zeros (55 - s.fill.val), ?_, ?_⟩
    · simp only [List.length_append, List.length_take, Vector.length_toList, List.length_singleton, zeros_length]
      omega
    · rw [finalBlocks_single ht, List.getLast?_singleton]
  · refine ⟨zeros 56, zeros_length 56, ?_⟩
    rw [finalBlocks_double ht, List.getLast?_cons_cons, List.getLast?_singleton]

/-- Settles O52: the length field is the counter's two words in the algorithm's order, behind the 56 bytes of 14
words. -/
theorem lengthFieldWords : Obligations.LengthFieldWords := by
  refine ⟨fun cnt => ⟨?_, ?_⟩, fun s cnt hcnt => ?_⟩
  · rw [lenField_md4, bytesToWords_wordsToBytes]
  · rw [lenField_sha0, bytesToWords_wordsToBytes]
  · obtain ⟨front, hfront, hlast⟩ := getLast?_finalBlocks s
    rw [← hcnt] at hlast
    refine ⟨_, hlast, fun ha => ?_, fun ha => ?_⟩
    · rw [ha, lenField_md4]
      exact bytesToWords_block_end .le hfront cnt[0] cnt[1]
    · rw [ha, lenField_sha0]
      exact bytesToWords_block_end .be hfront cnt[1] cnt[0]

end Sys2Proof.Machine

/-! ### Proofs: SHA-0's functions, schedule and compressor (spec/44_sha0.md R211 to R215)

The number of a step matters to its function and constant by its round only. A schedule is determined by its first 16
words, because each later word is read from the words before it, so the one that `SHA0Compress` builds is the only list
that meets R211 and R212. -/

namespace Sys2Proof.Machine

/-! The functions and constants of the rounds (R213). -/

theorem sha0F_eq_of_same_round {i j : Nat} (h : i / 20 = j / 20) : sha0F i = sha0F j := by
  funext b c d
  rw [sha0F, sha0F, h]

theorem sha0K_eq_of_same_round {i j : Nat} (h : i / 20 = j / 20) : sha0K i = sha0K j := by
  rw [sha0K, sha0K, h]

/-- The two sides of a select have no bit in common, so exclusive OR and OR of them are the same. -/
theorem select_xor_eq_md4F (b c d : Word) : (b &&& c) ^^^ (~~~b &&& d) = md4F b c d := by
  refine BitVec.eq_of_getLsbD_eq fun k hk => ?_
  rw [getLsbD_md4F b c d hk, BitVec.getLsbD_xor, BitVec.getLsbD_and, BitVec.getLsbD_and, BitVec.getLsbD_not,
    decide_eq_true hk]
  cases b.getLsbD k <;> simp

theorem majority_xor_eq_or :
    ∀ x y z : Bool, ((x && y) ^^ (x && z) ^^ (y && z)) = (x && y || x && z || y && z) := by
  decide

/-- Of the three pairs of bits none, one or all three are both set, never two, so exclusive OR and OR agree. -/
theorem majority_xor_eq_md4G (b c d : Word) : (b &&& c) ^^^ (b &&& d) ^^^ (c &&& d) = md4G b c d := by
  refine BitVec.eq_of_getLsbD_eq fun k _ => ?_
  rw [getLsbD_md4G, ← majority_xor_eq_or]
  simp only [BitVec.getLsbD_xor, BitVec.getLsbD_and]

/-- Settles O55: each step has the function and the constant of the first step of its round. -/
theorem sha0RoundFunctions : Obligations.Sha0RoundFunctions := by
  intro i b c d hi
  refine ⟨fun h => ?_, fun h h' => ?_, fun h h' => ?_, fun h => ?_⟩
  · have hround : i / 20 = 0 / 20 := by omega
    rw [sha0F_eq_of_same_round hround, sha0K_eq_of_same_round hround]
    exact ⟨rfl, select_xor_eq_md4F b c d, rfl⟩
  · have hround : i / 20 = 20 / 20 := by omega
    rw [sha0F_eq_of_same_round hround, sha0K_eq_of_same_round hround]
    exact ⟨rfl, rfl⟩
  · have hround : i / 20 = 40 / 20 := by omega
    rw [sha0F_eq_of_same_round hround, sha0K_eq_of_same_round hround]
    exact ⟨rfl, majority_xor_eq_md4G b c d, rfl⟩
  · have hround : i / 20 = 60 / 20 := by omega
    rw [sha0F_eq_of_same_round hround, sha0K_eq_of_same_round hround]
    exact ⟨rfl, rfl⟩

/-! The schedule (R211, R212). -/

/-- The right side of R212's recurrence for word `i` of the schedule `w`. -/
def sha0Recurrence (w : List Word) (i : Nat) : Word :=
  w.getD (i - 3) 0 ^^^ w.getD (i - 8) 0 ^^^ w.getD (i - 14) 0 ^^^ w.getD (i - 16) 0

theorem sha0Extend_succ (n : Nat) (w : List Word) :
    sha0Extend (n + 1) w = sha0Extend n (w ++ [sha0Recurrence w w.length]) := rfl

@[simp] theorem sha0Extend_length (n : Nat) (w : List Word) : (sha0Extend n w).length = w.length + n := by
  induction n generalizing w with
  | zero => rfl
  | succ n ih =>
    rw [sha0Extend_succ, ih, List.length_append, List.length_singleton]
    omega

theorem prefix_sha0Extend (n : Nat) (w : List Word) : w <+: sha0Extend n w := by
  induction n generalizing w with
  | zero => exact List.prefix_rfl
  | succ n ih => exact (List.prefix_append w _).trans (ih _)

theorem getD_eq_of_prefix {u w : List Word} (h : u <+: w) {i : Nat} (hi : i < u.length) : w.getD i 0 = u.getD i 0 := by
  obtain ⟨rest, rfl⟩ := h
  exact List.getD_append u rest 0 i hi

/-- The recurrence for a word reads the words before it only. -/
theorem sha0Recurrence_eq_of_prefix {u w : List Word} (h : u <+: w) {i : Nat} (h0 : 0 < i) (hi : i ≤ u.length) :
    sha0Recurrence w i = sha0Recurrence u i := by
  have hbefore : ∀ k, 0 < k → w.getD (i - k) 0 = u.getD (i - k) 0 := fun k hk => getD_eq_of_prefix h (by omega)
  simp only [sha0Recurrence, hbefore _ (Nat.succ_pos _)]

/-- Each added word meets the recurrence in the whole schedule. -/
theorem getD_sha0Extend (n : Nat) {w : List Word} (hw : 0 < w.length) {i : Nat} (hi : w.length ≤ i)
    (hin : i < w.length + n) : (sha0Extend n w).getD i 0 = sha0Recurrence (sha0Extend n w) i := by
  induction n generalizing w with
  | zero => omega
  | succ n ih =>
    rcases Nat.eq_or_lt_of_le hi with rfl | hlater
    · rw [sha0Recurrence_eq_of_prefix (prefix_sha0Extend _ w) hw le_rfl, sha0Extend_succ,
        getD_eq_of_prefix (prefix_sha0Extend n _) (by simp), List.getD_append_right _ _ _ _ le_rfl, Nat.sub_self]
      rfl
    · rw [sha0Extend_succ]
      exact ih (by simp) (by simpa using hlater) (by simp; omega)

/-- Settles O54: the 16 words stay in front, and each of the 64 added words meets the recurrence. -/
theorem sha0ScheduleWithoutRotate : Obligations.Sha0ScheduleWithoutRotate := by
  intro w16 hlen
  refine ⟨by rw [sha0Extend_length, hlen], ?_, fun i hi hi' => ?_⟩
  · rw [← hlen]
    exact (List.prefix_iff_eq_take.mp (prefix_sha0Extend 64 w16)).symm
  · exact getD_sha0Extend 64 (by omega) (by omega) (by omega)

/-- A list that meets the recurrence from word `k` on is the extension of its first `k` words. -/
theorem sha0Extend_take {n k : Nat} {w : List Word} (hk : 0 < k) (hlen : w.length = k + n)
    (hrec : ∀ i, k ≤ i → i < w.length → w.getD i 0 = sha0Recurrence w i) : sha0Extend n (w.take k) = w := by
  induction n generalizing k with
  | zero => exact List.take_of_length_le (by omega)
  | succ n ih =>
    have hkw : k < w.length := by omega
    have htake : (w.take k).length = k := List.length_take_of_le hkw.le
    have hnext : sha0Recurrence (w.take k) (w.take k).length = w[k] := by
      rw [htake, ← sha0Recurrence_eq_of_prefix (List.take_prefix k w) hk htake.ge, ← hrec k le_rfl hkw,
        List.getD_eq_getElem w 0 hkw]
    rw [sha0Extend_succ, hnext, List.take_append_getElem]
    exact ih k.succ_pos (by omega) fun i hi => hrec i (by omega)

/-! The compressor (R214, R215). -/

/-- Lanes that take each of the steps are those of the loop. -/
theorem foldl_sha0Step_eq {w : List Word} {lanes : Nat → Vector Word 5} {n : Nat}
    (hstep : ∀ i, i < n → lanes (i + 1) = sha0Step w (lanes i) i) :
    (List.range n).foldl (sha0Step w) (lanes 0) = lanes n := by
  induction n with
  | zero => rfl
  | succ n ih =>
    rw [List.range_succ, List.foldl_append, ih fun i hi => hstep i (by omega), List.foldl_cons, List.foldl_nil,
      hstep n n.lt_succ_self]

/-- The compressor adds its input to the lanes that the loop leaves. -/
theorem sha0Compress_eq_of_loop {hin v : Vector Word 5} {block : List Byte} {w16 : List Word}
    (hwords : bytesToWords block .be = .ok w16)
    (hloop : (List.range 80).foldl (sha0Step (sha0Extend 64 w16)) hin = v) :
    ∃ hout, sha0Compress hin block = .ok hout ∧ ∀ i : Fin 5, hout[i] = hin[i] + v[i] := by
  refine ⟨#v[hin[0] + v[0], hin[1] + v[1], hin[2] + v[2], hin[3] + v[3], hin[4] + v[4]], ?_, fun i => ?_⟩
  · rw [sha0Compress, hwords, ← hloop]
    rfl
  · fin_cases i <;> rfl

/-- Settles O56: the schedule is the one that the compressor builds, so the lanes are those of its loop. -/
theorem sha0CompressFollowsTheSchedule : Obligations.Sha0CompressFollowsTheSchedule := by
  rintro _ block w lanes - hlen hwords hrec rfl hlanes
  have hschedule : sha0Extend 64 (w.take 16) = w :=
    sha0Extend_take (by omega) hlen fun i hi hi' => hrec i hi (by omega)
  refine sha0Compress_eq_of_loop hwords ?_
  rw [hschedule]
  exact foldl_sha0Step_eq hlanes

end Sys2Proof.Machine

/-! ### Proofs: the faults (spec/60_exceptions.md R240 to R242, R246)

A word on CMD has one of the effects of the matrix. Those that end in FAULTED write PHASE and FCODE only, and the others
leave FCODE alone; none of them looks at the counter to choose its phase. -/

namespace Sys2Proof.Machine

/-! What raising a fault writes. -/

theorem raiseFault_of_ne_bounds {c : FaultCode} (hc : c ≠ .bounds) (s : State) :
    raiseFault c s = { s with phase := .faulted, fcode := some c } := by
  cases c with
  | illegalCmd | notInit | doubleFinal | feedAfterFinal => rfl
  | bounds => exact absurd rfl hc

/-- After BOUNDS the five elements of R240 are some values. -/
theorem raiseFault_bounds (s : State) : ∃ h cnt buf fill d, raiseFault .bounds s = { s with
    phase := .faulted, fcode := some .bounds, h := h, cnt := cnt, buf := buf, fill := fill, d := d } :=
  ⟨_, _, _, _, _, rfl⟩

/-! PHASE and FCODE on the effects of a word. -/

/-- A word that takes the engine into FAULTED writes PHASE and FCODE and nothing else (R240). -/
theorem CommandEffect.eq_of_faults {w : Word} {s t : State} (ht : CommandEffect w s t) (hs : s.phase ≠ .faulted)
    (hfaulted : t.phase = .faulted) : t = { s with phase := .faulted, fcode := t.fcode } := by
  cases ht with
  | noEffect => exact absurd hfaulted hs
  | illegal | fault => rfl
  | init | final => cases hfaulted
  | feed _ _ _ _ _ hfeed =>
    have hphase : t.phase = s.phase := by rw [absorbBytes_frame hfeed]
    exact absurd (hphase ▸ hfaulted) hs

/-- Only a fault writes FCODE (R240). -/
theorem CommandEffect.fcode_eq {w : Word} {s t : State} (ht : CommandEffect w s t) (hsafe : t.phase ≠ .faulted) :
    t.fcode = s.fcode := by
  cases ht with
  | noEffect | init | final => rfl
  | illegal | fault => exact absurd rfl hsafe
  | feed _ _ _ _ _ hfeed => rw [absorbBytes_frame hfeed]

/-- Settles O23: the codes one by one, and the effects of a word that end in FAULTED. -/
theorem faultsArePrecise : Obligations.FaultsArePrecise := by
  refine ⟨fun c s hc => raiseFault_of_ne_bounds hc s, raiseFault_bounds, fun w s t ht hs hfaulted => ?_⟩
  obtain ⟨u, hu, heffect⟩ := performCommand_effect w s
  cases hu.symm.trans ht
  exact heffect.eq_of_faults hs hfaulted

/-! The faults of FEED and FINAL by phase. -/

theorem faultOf_uninit_feed {i : Instr} (hi : isFeed i = true) : faultOf .uninit i = some .notInit := by
  cases i with
  | feed0 | feed1 | feed2 | feed3 => rfl
  | nop | init | final => cases hi

theorem faultOf_finalized_feed {i : Instr} (hi : isFeed i = true) : faultOf .finalized i = some .feedAfterFinal := by
  cases i with
  | feed0 | feed1 | feed2 | feed3 => rfl
  | nop | init | final => cases hi

/-- Settles O24: the four cells of the matrix, each with what a command does that its phase does not admit. -/
theorem phaseFaults : Obligations.PhaseFaults := fun _ _ =>
  ⟨fun hi hs => exec_of_faultOf (hs ▸ faultOf_uninit_feed hi),
    fun hi hs => exec_of_faultOf (hs ▸ faultOf_finalized_feed hi),
    fun hs => exec_of_faultOf (by rw [hs, faultOf]), fun hs => exec_of_faultOf (by rw [hs, faultOf])⟩

/-! The commands in ABSORB. -/

/-- Every command has the effect of its word. -/
theorem exec_effect (i : Instr) (s : State) : ∃ t, exec i s = .next t ∧ CommandEffect (encode i) s t := by
  obtain ⟨t, ht, heffect⟩ := performCommand_effect (encode i) s
  exact ⟨t, (performCommand_of_ok (decodeOfEncode i) s).symm.trans ht, heffect⟩

/-- Settles O26: the matrix has no fault in ABSORB, whatever the counter holds, and without a fault FCODE is kept. -/
theorem counterWrapIsNoFault : Obligations.CounterWrapIsNoFault := by
  intro i s cnt hs
  obtain ⟨t, ht, heffect⟩ := exec_effect i { s with cnt := cnt }
  have hnofault : faultOf .absorb i = none := rfl
  have hphase : t.phase = phaseAfter .absorb i := by
    rw [exec_phase_eq (s := { s with cnt := cnt }) (by simp [hs]) (hs ▸ hnofault) ht, hs]
  have hsafe : t.phase ≠ .faulted := hphase ▸ phaseAfter_ne_faulted nofun hnofault
  exact ⟨t, ht, hphase, heffect.fcode_eq hsafe⟩

end Sys2Proof.Machine

/-! ### Proofs: reset, and that every command completes (spec/70_reset_and_hazards.md R270, R279) -/

namespace Sys2Proof.Machine

/-- Settles O12: a command does what its word does, and every word has an effect of the matrix. -/
theorem everyCommandCompletes : Obligations.EveryCommandCompletes := by
  intro i s
  obtain ⟨t, ht, -⟩ := exec_effect i s
  exact ⟨t, ht⟩

theorem step_of_reset {s : State} {rest : List HostEvent} (hs : s.port = .reset :: rest) :
    step s = .next (resetEngine { s with port := rest }) := step_of_port hs

/-- Settles O21: the reset asks for no phase, so FAULTED is left too; the four unspecified elements are the draws of the
reset's epoch. -/
theorem resetFromAnyState : Obligations.ResetFromAnyState := fun _ _ hport => ⟨_, _, _, _, step_of_reset hport⟩

end Sys2Proof.Machine

/-! ### Proofs: the words written out in the manual (spec/95_test_vectors.md L2.3) -/

namespace Sys2Proof

/-- Settles O6: each word is the word of its command, which decodes to that command. -/
theorem wordsFromTheManualDecode : Obligations.WordsFromTheManualDecode :=
  ⟨decode_encode .nop, decode_encode (.init .md4), decode_encode (.init .sha0), decode_encode .feed0,
    decode_encode (.feed1 0x61), decode_encode (.feed2 0x61 0x62), decode_encode (.feed3 0x61 0x62 0x63),
    decode_encode .final⟩

end Sys2Proof
